-- ==== Sys2Proof/Word.lean ====
section
/-! DEFINITION. Bytes, and the signed range of an operand width (spec/00_scope.md R11, R12).  The operand width itself,
`XLEN` of R10, is a parameter: `Params.xlen` (Config.lean). -/

namespace Sys2Proof

/-- A byte is 8 bits (R11). -/
abbrev Byte := BitVec 8

/-- `v` is a two's-complement value of `w` bits (R12). -/
def fitsSigned (w : Nat) (v : Int) : Bool := decide (-((2 ^ (w - 1) : Nat) : Int) ≤ v ∧ v < ((2 ^ (w - 1) : Nat) : Int))

end Sys2Proof
end

