-- ==== Sys2Proof/Config.lean ====
section
/-! DEFINITION. The implementation parameters of R10 and the values the spec leaves free. -/

namespace Sys2Proof

/-- The Segment Encoding Table `SEG`: eleven entries of 8 bits, entries 0 to 9 the digits, entry 10 the blank
(R51, R140). -/
abbrev SegTable := Vector Byte 11

/-- What the spec asks of `SEG`: no digit pattern has its top bit set (R141), and the blank lights nothing (R143). -/
abbrev SegTable.Ok (seg : SegTable) : Prop :=
  (∀ d : Fin 10, (seg[d.val]'(by omega)).getLsbD 7 = false) ∧ seg[10] = 0x00#8

/-- The parameters of R10 that a step depends on.  `T_HOLD` and `HOLD_CYCLES` are timing only, and the model takes
neither (D14, R243). -/
structure Params where
  /-- `XLEN`, the width of the host operands `value` and `level` (R10, decision D4); a command word has three bits more
  (R70). -/
  xlen : Nat
  /-- `SEG` (R140). -/
  seg : SegTable
  /-- `CMD_DATA`, the byte that selects auto-incrementing write mode (R77). -/
  cmdData : Byte
  /-- `CMD_ADDR`, the byte that selects write address zero (R78). -/
  cmdAddr : Byte
  /-- `INIT_LEVEL`, the signed level that initialize sends (R163), OPEN in R10. -/
  initLevel : Int
deriving DecidableEq, Repr

/-- What the spec asks of the parameters (R10): `XLEN >= 16`, an `INIT_LEVEL` of `XLEN` bits, and a proper `SEG`. -/
abbrev Params.Ok (p : Params) : Prop := 16 ≤ p.xlen ∧ fitsSigned p.xlen p.initLevel = true ∧ p.seg.Ok

/-- The default of `XLEN` (R10, D4), and the width of the host rows of spec/opcode_table.json.  PRESUMED: the spec takes
it from general knowledge (G6, log entry 2). -/
abbrev Config.defaultXlen : Nat := 32

/-- The default table of R142. PRESUMED: the spec takes it from general knowledge (G1). -/
def Config.defaultSeg : SegTable :=
  #v[0x3F, 0x06, 0x5B, 0x4F, 0x66, 0x6D, 0x7D, 0x07, 0x7F, 0x6F, 0x00]

/-- The parameter values of the spec's own vectors (R10, spec/95_test_vectors.md): what `State.reset` carries.
PRESUMED for `xlen`, `seg`, `cmdData`, `cmdAddr` (G6, G1, G3, G4); DESIGN CHOICE for `initLevel`, which R10 leaves OPEN
and the vectors take as 7.  No statement rests on these values (log entries 2 and 3). -/
def Config.vectorParams : Params :=
  { xlen := Config.defaultXlen, seg := Config.defaultSeg, cmdData := 0x40, cmdAddr := 0xC0, initLevel := 7 }

/-- The level that the environment gives at a sample for which the state lists none: any value (R7, U7). -/
opaque Config.freeLevel : Nat → Bool

/-- `OP` after a `Reset` step: unspecified (R220, U5). -/
opaque Config.freeOp : Nat → BitVec 2

/-- `CMDB` after a `Reset` step: unspecified (R220, U5). -/
opaque Config.freeCmdb : Nat → Byte

/-- `BUF[k]` after a `Reset` step: unspecified (R220, U5); the second argument is `k`. -/
opaque Config.freeBuf : Nat → Nat → Byte

end Sys2Proof
end

