-- ==== Sys2Proof/Machine/State.lean ====
section
/-! DEFINITION. The state of the block (spec/10_state.md R38), with the environment's pending inputs beside it, and the
reasons a step can stop. -/

namespace Sys2Proof.Machine

open Sys2Proof

/-- The direction of the data line (R21). -/
inductive Dir where
  | out | inp
deriving DecidableEq, Repr

/-- The three line registers (R20, R21).  A level `true` is 1: the line is released. -/
structure Lines where
  /-- `CLK_OUT`. -/
  clkOut : Bool
  /-- `DIO_OUT`. -/
  dioOut : Bool
  /-- `DIO_DIR`. -/
  dioDir : Dir
deriving DecidableEq, Repr

/-- The idle-high lines (R20, R21, R128): the reset state of the lines and the state every operation ends in. -/
def Lines.idle : Lines := { clkOut := true, dioOut := true, dioDir := .out }

/-- The seven pin micro-operations (spec/40_pin_microops.md), what a list `prog(op)` is made of. -/
inductive Uop where
  | clkLo | clkHi | dioLo | dioHi | dioDirOut | dioDirIn | dioSample
deriving DecidableEq, Repr

/-- One entry of the pin trace: the micro-operation performed, with the sampled bit for `DIO_SAMPLE` (R34). -/
inductive PinEvent where
  | clkLo | clkHi | dioLo | dioHi | dioDirOut | dioDirIn
  | dioSample (b : Bool)
deriving DecidableEq, Repr

/-- All state of R38, then the model's own fields: the parameters (R10) and what the outside world has in store for the
three inputs of R33 that a step reads. -/
structure State where
  /-- `CLK_OUT`, `DIO_OUT`, `DIO_DIR` (R20, R21). -/
  lines : Lines
  /-- `BUF[0..3]` (R23). -/
  buf : Vector Byte 4
  /-- `CMDB` (R24). -/
  cmdb : Byte
  /-- `OP` (R25). -/
  op : BitVec 2
  /-- `UPC` (R27). -/
  upc : BitVec 8
  /-- `BUSY` (R29). -/
  busy : Bool
  /-- `INITED` (R30). -/
  inited : Bool
  /-- `ACK_LAST` (R31). -/
  ackLast : Bool
  /-- `TRACE`, oldest entry first (R34). -/
  trace : List PinEvent
  /-- The parameters of R10; no step writes them (log entries 2 and 3). -/
  params : Params
  /-- The command words the host has yet to have accepted, each as the number on `cmd_word`; the head is the word there
  with `cmd_valid = 1`, and with none left `cmd_valid = 0` (R9, R160, log entry 4).  Its bits are `portWord`'s. -/
  cmdIn : List Nat
  /-- The level of `rst` at each step to come; 0 when none is listed (R223, log entry 4). -/
  rstIn : List Bool
  /-- The peripheral's contribution to the data line at each sample to come; free when none is listed (R7, R35,
  log entry 4). -/
  dioIn : List Bool
  /-- How many free values the run has drawn: the argument of the free constants of `Config` (log entry 4). -/
  freeIdx : Nat
deriving DecidableEq, Repr

/-- The block raises no exception, trap or fault, ever (R190): the type of fault reasons is empty. -/
inductive Fault where
deriving DecidableEq, Repr

/-- The reasons a step is refused. -/
inductive Refusal where
  /-- Raised by `exec` alone, for an instruction that has no meaning yet.  Safe. -/
  | notModelled (mnemonic : String)
  /-- Raised by `RESERVED_H3`: `op = 0b11` has no meaning (R84, R166, U1).  Safe: a run that presents it is rejected. -/
  | reservedOpcode
  /-- Raised by `BRIGHT` and `SHOW` while `INITED = 0` (R167, U2).  Safe: such a run is rejected. -/
  | beforeInit
  /-- Raised by `DIO_SAMPLE` while `DIO_DIR = OUT` (R107, U6).  Safe, and no list of the block does it. -/
  | sampleWhileOutput
  /-- Raised by `RESERVED_U7`: micro-operation code 7 is unused (R89).  Safe, and no list of the block holds it. -/
  | unusedMicroop
deriving DecidableEq, Repr

/-- The state right after reset (R38, R220), with nothing in store outside.  `OP`, `CMDB` and `BUF` are unspecified
there: zero is a DESIGN CHOICE (log entry 1), and the parameters are those of the spec's vectors (log entries 2 and 3). -/
def State.reset : State :=
  { lines := Lines.idle
    buf := #v[0, 0, 0, 0]
    cmdb := 0
    op := 0
    upc := 0
    busy := false
    inited := false
    ackLast := true
    trace := []
    params := Config.vectorParams
    cmdIn := []
    rstIn := []
    dioIn := []
    freeIdx := 0 }

end Sys2Proof.Machine
end

