-- ==== Sys2Proof/Machine/Operands.lean ====
section
/-! DEFINITION. The block's operand arithmetic (spec/42_segment_encoder.md): the decimal encoder `encode` and the command
composer `ctrl`, for operands of every width. -/

namespace Sys2Proof.Machine

open Sys2Proof

/-- A host operand in the `XLEN` bits that `arg` and `INIT_LEVEL` have (R10, R12). -/
def operand (p : Params) (v : Int) : BitVec p.xlen := BitVec.ofInt _ v

/-- The magnitude of R144, an unsigned result of the operand's own width: exact also for the most negative value. -/
def magnitude {w : Nat} (value : BitVec w) : BitVec w := if value.msb then 0 - value else value

/-- `MemRead(SEG, m mod 10)`: the pattern of the lowest decimal digit of `m` (R145, R146, R54). -/
def segDigit (seg : SegTable) (m : Nat) : Byte := seg[m % 10]'(by omega)

/-- The colon on a pattern (R147): the top bit set, or the pattern as it is. -/
def withColon (colon : Bool) (pat : Byte) : Byte := if colon then pat ||| 0x80#8 else pat

/-- `encode(value, colon)` of R148: four rounds of division by ten, units first (R145), each digit through `SEG` (R146),
the colon on digit index 1 (R147). -/
def segEncode {w : Nat} (seg : SegTable) (value : BitVec w) (colon : Bool) : Vector Byte 4 :=
  let m := (magnitude value).toNat
  let tens := m / 10
  let hundreds := tens / 10
  let thousands := hundreds / 10
  #v[segDigit seg thousands, withColon colon (segDigit seg hundreds), segDigit seg tens, segDigit seg m]

/-- `ctrl(level)` of R149, with signed comparisons over the whole operand. -/
def ctrlOf {w : Nat} (level : BitVec w) : Byte :=
  if level.toInt < 0 then 0x80#8
  else if level.toInt ≤ 7 then 0x88#8 ||| (level.extractLsb' 0 3).zeroExtend 8
  else 0x8F#8

end Sys2Proof.Machine
end

