-- ==== Sys2Proof/Syntax.lean ====
section
/-! DEFINITION. The instructions: one constructor for each row of spec/opcode_table.json (R83), in the table's order. -/

namespace Sys2Proof

/-- Every row of the opcode table, by space. -/
inductive Instr where
  -- Space H: the host operations (R72)
  /-- `INIT`, initialize (R163). -/
  | init
  /-- `BRIGHT level`, set-brightness (R164); the operand is a signed integer of `XLEN` bits (R12, R80). -/
  | bright (level : Int)
  /-- `SHOW value, colon`, display-decimal (R165); the operand likewise. -/
  | showDec (value : Int) (colon : Bool)
  /-- The reserved opcode `0b11` (R84, R166). -/
  | reservedH3
  -- Space W: the bytes on the wire (R76 to R79)
  /-- The display control command byte `1000 on lvl` (R76). -/
  | ctrl (on : Bool) (lvl : BitVec 3)
  /-- The data command byte `CMD_DATA` (R77). -/
  | data
  /-- The address command byte `CMD_ADDR` (R78). -/
  | addr
  /-- A segment pattern byte (R79). -/
  | pattern (colonDp : Bool) (segments : BitVec 7)
  -- Space B: the bus primitives (R120 to R126)
  | busInit
  | start
  | stop
  | sendByte (b : Byte)
  | readAck
  | cmdFrame (b : Byte)
  -- Space U: the pin micro-operations (R101 to R107)
  | clkLo
  | clkHi
  | dioLo
  | dioHi
  | dioDirOut
  | dioDirIn
  | dioSample
  /-- The unused micro-operation code 7 (R89). -/
  | reservedU7
deriving DecidableEq, Repr

/-- The pseudo-operation `OFF` of R88. -/
abbrev Instr.off : Instr := .bright (-1)

/-- The pseudo-operation `ON level` of R88. -/
abbrev Instr.on (level : Int) : Instr := .bright level

end Sys2Proof
end

