-- ==== Sys2Proof/Machine/Ops.lean ====
section
/-! DEFINITION. The shared operations over the block's registers: line writes, the trace, the sample, acceptance of a
command, and reset.

The block takes no exception and returns from none (R190, R198, R199); the one entry that cuts an operation short is
reset, `State.takeReset`. -/

namespace Sys2Proof.Machine

open Sys2Proof

/-- What a step answers. -/
abbrev Result := Host.Outcome State Fault Refusal

/-- First `r`, then `f` on the state it left; a refusal ends it. -/
def thenDo (r : Result) (f : State → Result) : Result :=
  match r with
  | .next s => f s
  | .fault e => .fault e
  | .refused e => .refused e

/-! ## The wires (R35) -/

/-- `own_dio`, the block's contribution to the data line (R35). -/
def Lines.ownDio (l : Lines) : Bool :=
  match l.dioDir with
  | .out => l.dioOut
  | .inp => true

/-- `wire_clk` (R35). -/
def Lines.wireClk (l : Lines) : Bool := l.clkOut

/-- `wire_dio`, wired-AND with the peripheral's contribution `p` (R35). -/
def Lines.wireDio (l : Lines) (p : Bool) : Bool := l.ownDio && p

/-! ## The micro-operations on the lines -/

/-- What a micro-operation does to the three line registers (R101 to R107). -/
def Lines.perform (u : Uop) (l : Lines) : Lines :=
  match u with
  | .clkLo => { l with clkOut := false }
  | .clkHi => { l with clkOut := true }
  | .dioLo => { l with dioOut := false }
  | .dioHi => { l with dioOut := true }
  | .dioDirOut => { l with dioDir := .out }
  | .dioDirIn => { l with dioDir := .inp }
  | .dioSample => l

/-- A micro-operation as the instruction of its opcode-table row. -/
def Uop.toInstr : Uop → Instr
  | .clkLo => .clkLo
  | .clkHi => .clkHi
  | .dioLo => .dioLo
  | .dioHi => .dioHi
  | .dioDirOut => .dioDirOut
  | .dioDirIn => .dioDirIn
  | .dioSample => .dioSample

/-- The micro-operation that a trace entry records. -/
def PinEvent.uop : PinEvent → Uop
  | .clkLo => .clkLo
  | .clkHi => .clkHi
  | .dioLo => .dioLo
  | .dioHi => .dioHi
  | .dioDirOut => .dioDirOut
  | .dioDirIn => .dioDirIn
  | .dioSample _ => .dioSample

/-- The trace entry of a micro-operation, `b` the bit if it samples (R34). -/
def Uop.event (u : Uop) (b : Bool) : PinEvent :=
  match u with
  | .clkLo => .clkLo
  | .clkHi => .clkHi
  | .dioLo => .dioLo
  | .dioHi => .dioHi
  | .dioDirOut => .dioDirOut
  | .dioDirIn => .dioDirIn
  | .dioSample => .dioSample b

/-- The numeric code of a micro-operation (R89). -/
def Uop.code : Uop → Nat
  | .clkLo => 0
  | .clkHi => 1
  | .dioLo => 2
  | .dioHi => 3
  | .dioDirOut => 4
  | .dioDirIn => 5
  | .dioSample => 6

/-- A micro-operation that writes a line register: the write, and its trace entry (`emit` of R13), also where the register holds the
value already (R64, R100). -/
def State.drive (s : State) (u : Uop) : State :=
  { s with lines := s.lines.perform u, trace := s.trace ++ [u.event false] }

/-! ## The sample (R107) -/

/-- The peripheral's contribution to the data line at the next sample: the next listed level, else a free one
(R7, U7). -/
def State.nextLevel (s : State) : Bool := s.dioIn.headD (Config.freeLevel s.freeIdx)

/-- The state once that level is used up. -/
def State.drawLevel (s : State) : State :=
  { s with dioIn := s.dioIn.tail, freeIdx := if s.dioIn.isEmpty then s.freeIdx + 1 else s.freeIdx }

/-- `sample()`, `ACK_LAST <- b`, `emit(DIO_SAMPLE, b)` (R107): the level is that of the wire (R35). -/
def State.sample (s : State) : State :=
  let b := s.lines.wireDio s.nextLevel
  { s.drawLevel with ackLast := b, trace := s.trace ++ [.dioSample b] }

/-! ## Acceptance (R161) -/

/-- `OP <- op; UPC <- 0; BUSY <- 1`, what every `Accept` writes beside its data register (R161). -/
def State.accept (s : State) (op : BitVec 2) : State := { s with op := op, upc := 0, busy := true }

/-! ## Reset (R220) -/

/-- The `Reset` step: all writes together; `OP`, `CMDB` and `BUF` become free values (U5).  Parameters and what the
outside has in store stay (R225, R232). -/
def State.takeReset (s : State) : State :=
  { s with
    lines := Lines.idle
    busy := false
    upc := 0
    inited := false
    ackLast := true
    trace := []
    op := Config.freeOp s.freeIdx
    cmdb := Config.freeCmdb s.freeIdx
    buf := #v[Config.freeBuf s.freeIdx 0, Config.freeBuf s.freeIdx 1, Config.freeBuf s.freeIdx 2,
              Config.freeBuf s.freeIdx 3]
    freeIdx := s.freeIdx + 1 }

/-! ## The inputs of a step -/

/-- The command word `CW` that the number `n` puts on the `XLEN + 3` wires of `cmd_word` (R33, R70); what lies above them
is not on the port (log entry 2). -/
def portWord (p : Params) (n : Nat) : BitVec (p.xlen + 3) := BitVec.ofNat _ n

/-- The level of `rst` at this step (R223). -/
def State.rstNow (s : State) : Bool := s.rstIn.headD false

/-- `rst` has been sampled for this step (R223). -/
def State.tick (s : State) : State := { s with rstIn := s.rstIn.tail }

end Sys2Proof.Machine
end

