-- ==== Sys2Proof/Machine/HostOps.lean ====
section
/-! DEFINITION. Space H: the host operations as the `Accept` step takes them (spec/43_display_driver.md).  The
micro-operations that follow are the `Micro` steps' (Machine/Sequencer.lean).  A word presented while `BUSY = 1` is not
accepted and changes nothing (R160, V74). -/

namespace Sys2Proof.Machine

open Sys2Proof

/-- `Accept` of `INIT` (R161, R163): always acceptable on an idle block (R167). -/
def execInit (s : State) : Result :=
  if s.busy then .next s
  else .next { s.accept 0b00 with cmdb := ctrlOf (operand s.params s.params.initLevel) }

/-- `Accept` of `BRIGHT level` (R161, R164). -/
def execBright (level : Int) (s : State) : Result :=
  if s.busy then .next s
  else if s.inited then .next { s.accept 0b01 with cmdb := ctrlOf (operand s.params level) }
  else .refused .beforeInit

/-- `Accept` of `SHOW value, colon` (R161, R165). -/
def execShow (value : Int) (colon : Bool) (s : State) : Result :=
  if s.busy then .next s
  else if s.inited then .next { s.accept 0b10 with buf := segEncode s.params.seg (operand s.params value) colon }
  else .refused .beforeInit

/-- The reserved opcode has no meaning (R84, R166). -/
def execReservedH3 (_ : State) : Result := .refused .reservedOpcode

end Sys2Proof.Machine
end

