-- ==== Sys2Proof/WellFormed.lean ====
section
/-! DEFINITION. Which instructions the spec lets anyone issue. -/

namespace Sys2Proof

/-- The two reserved codes name no operation (R84, R89), and a control byte with display off has level field 0:
0x81 to 0x87 are never sent (R76, R85).  A host operand is any signed value of `XLEN` bits (R12, R80), and a byte operand
any byte (R124). -/
def Instr.wellFormed (xlen : Nat) : Instr → Bool
  | .reservedH3 => false
  | .reservedU7 => false
  | .ctrl on lvl => on || lvl == 0
  | .init => true
  | .bright level => fitsSigned xlen level
  | .showDec value _ => fitsSigned xlen value
  | .data | .addr | .pattern _ _ => true
  | .busInit | .start | .stop | .sendByte _ | .readAck | .cmdFrame _ => true
  | .clkLo | .clkHi | .dioLo | .dioHi | .dioDirOut | .dioDirIn | .dioSample => true

end Sys2Proof
end

