-- ==== Sys2Proof/Decode.lean ====
section
/-! DEFINITION. Decoding and encoding of the four encoding spaces (spec/30_encoding.md).

A code is told apart from the codes of the other spaces by where it stands, never by its value: a host command word
comes through the port, a wire byte by its place in a frame (R74, R75), a primitive or micro-operation code from a list
(R89, R90).  `Code` keeps that place. -/

namespace Sys2Proof

/-- An encoded instruction, with the place it stands in. -/
inductive Code where
  /-- A host command word of `xlen + 3` bits, format H (R70). -/
  | host (xlen : Nat) (cw : BitVec (xlen + 3))
  /-- The one byte of a frame of shape F1 (R74). -/
  | frameByte (b : Byte)
  /-- The first byte of a frame of shape F2 (R75). -/
  | addrByte (b : Byte)
  /-- One of the bytes 2 to 5 of a frame of shape F2 (R75). -/
  | dataByte (b : Byte)
  /-- A bus primitive code (R90) with the byte operand that R120 gives two of them.
  DESIGN CHOICE: R90 codes the name only, so the operand stands beside the code (log entry 5). -/
  | prim (code : BitVec 3) (operand : Option Byte)
  /-- A micro-operation code (R89). -/
  | uop (code : BitVec 3)
deriving DecidableEq, Repr

/-- Why a code names no instruction. -/
inductive DecodeError where
  /-- An F1 byte that is neither a control command nor the data command (R85). -/
  | notACommandByte
  /-- A first F2 byte that is not the address command (R85). -/
  | notTheAddressByte
  /-- Primitive codes 6 and 7, unused (R90). -/
  | unusedPrimitive
  /-- `SEND_BYTE` or `CMD_FRAME` without its byte (R120). -/
  | missingOperand
  /-- A byte beside a primitive that takes none (R120). -/
  | strayOperand
deriving DecidableEq, Repr

/-- `CW[XLEN+2:XLEN+1]` (R71). -/
def opField {xlen : Nat} (cw : BitVec (xlen + 3)) : BitVec 2 := cw.extractLsb' (xlen + 1) 2

/-- `CW[XLEN]` (R71). -/
def colonField {xlen : Nat} (cw : BitVec (xlen + 3)) : Bool := cw.getLsbD xlen

/-- `CW[XLEN-1:0]` (R71). -/
def argField {xlen : Nat} (cw : BitVec (xlen + 3)) : BitVec xlen := cw.extractLsb' 0 xlen

/-- `{op, colon, arg}` (R71, R87). -/
def hostWord {xlen : Nat} (op : BitVec 2) (colon : Bool) (arg : BitVec xlen) : BitVec (xlen + 3) :=
  (op ++ BitVec.ofBool colon ++ arg).cast (by omega)

/-- Format H is total: its four opcodes are three operations and the reserved one (R72, R84). Fields that an operation
does not use are ignored (R81); an operand is the signed value of `arg` (R12, R80). -/
def decodeHost {xlen : Nat} (cw : BitVec (xlen + 3)) : Instr :=
  match (opField cw).toNat with
  | 0 => .init
  | 1 => .bright (argField cw).toInt
  | 2 => .showDec (argField cw).toInt (colonField cw)
  | _ => .reservedH3

/-- The control command byte `1000 on lvl` (R76). -/
def ctrlByte (on : Bool) (lvl : BitVec 3) : Byte := 0b1000#4 ++ BitVec.ofBool on ++ lvl

/-- A segment pattern byte (R79). -/
def patternByte (colonDp : Bool) (segments : BitVec 7) : Byte := BitVec.ofBool colonDp ++ segments

/-- The byte that an F1 frame carries (R74): a control command or the data command, by value (R76, R77).
The number 0x40 is the opcode table's; the byte that `DATA` sends is the parameter `CMD_DATA` (log entry 6). -/
def decodeFrameByte (b : Byte) : Except DecodeError Instr :=
  if b = 0x40#8 then .ok .data
  else if b.extractLsb' 4 4 = 0b1000#4 then .ok (.ctrl (b.getLsbD 3) (b.extractLsb' 0 3))
  else .error .notACommandByte

/-- Bytes 2 to 5 of an F2 frame are patterns whatever their value (R75, R79). -/
def decodeDataByte (b : Byte) : Instr := .pattern (b.getLsbD 7) (b.extractLsb' 0 7)

/-- The bus primitive codes of R90. -/
def decodePrim (code : BitVec 3) (operand : Option Byte) : Except DecodeError Instr :=
  match code.toNat, operand with
  | 0, none => .ok .busInit
  | 1, none => .ok .start
  | 2, none => .ok .stop
  | 3, some b => .ok (.sendByte b)
  | 4, none => .ok .readAck
  | 5, some b => .ok (.cmdFrame b)
  | 3, none => .error .missingOperand
  | 5, none => .error .missingOperand
  | 6, _ => .error .unusedPrimitive
  | 7, _ => .error .unusedPrimitive
  | _, _ => .error .strayOperand

/-- The micro-operation codes of R89; code 7 is the table's unused row. -/
def decodeUop (code : BitVec 3) : Instr :=
  match code.toNat with
  | 0 => .clkLo
  | 1 => .clkHi
  | 2 => .dioLo
  | 3 => .dioHi
  | 4 => .dioDirOut
  | 5 => .dioDirIn
  | 6 => .dioSample
  | _ => .reservedU7

/-- Every code is an instruction or is rejected by name. -/
def decode : Code → Except DecodeError Instr
  | .host _ cw => .ok (decodeHost cw)
  | .frameByte b => decodeFrameByte b
  | .addrByte b => if b = 0xC0#8 then .ok .addr else .error .notTheAddressByte
  | .dataByte b => .ok (decodeDataByte b)
  | .prim code operand => decodePrim code operand
  | .uop code => .ok (decodeUop code)

/-- The code of an instruction at operand width `xlen`, in canonical form: zeros in ignored fields (R81). -/
def encode (xlen : Nat) : Instr → Code
  | .init => .host xlen (hostWord 0b00 false 0)
  | .bright level => .host xlen (hostWord 0b01 false (BitVec.ofInt xlen level))
  | .showDec value colon => .host xlen (hostWord 0b10 colon (BitVec.ofInt xlen value))
  | .reservedH3 => .host xlen (hostWord 0b11 false 0)
  | .ctrl on lvl => .frameByte (ctrlByte on lvl)
  | .data => .frameByte 0x40
  | .addr => .addrByte 0xC0
  | .pattern colonDp segments => .dataByte (patternByte colonDp segments)
  | .busInit => .prim 0 none
  | .start => .prim 1 none
  | .stop => .prim 2 none
  | .sendByte b => .prim 3 (some b)
  | .readAck => .prim 4 none
  | .cmdFrame b => .prim 5 (some b)
  | .clkLo => .uop 0
  | .clkHi => .uop 1
  | .dioLo => .uop 2
  | .dioHi => .uop 3
  | .dioDirOut => .uop 4
  | .dioDirIn => .uop 5
  | .dioSample => .uop 6
  | .reservedU7 => .uop 7

/-- The code that a word of the opcode table stands for when nothing but its length and its value is known.
DESIGN CHOICE: the table gives spaces B, U and W the same values, and only a code's place tells them apart, so a short
word below 8 is read as a micro-operation and any other byte as the wire byte of that value (log entry 6).  The table lays
its host rows out at the default width. -/
def tableCode (nbits w : Nat) : Option Code :=
  if 32 < nbits then (if w < 2 ^ 35 then some (.host Config.defaultXlen (BitVec.ofNat _ w)) else none)
  else if w < 8 then some (.uop (BitVec.ofNat 3 w))
  else if w = 0xC0 then some (.addrByte 0xC0)
  else if w = 0x40 ∨ w / 16 = 8 then some (.frameByte (BitVec.ofNat 8 w))
  else if w < 256 then some (.dataByte (BitVec.ofNat 8 w))
  else none

/-- The instruction that this decoder reads from a word of the opcode table. -/
def decodeTableWord (nbits w : Nat) : Option Instr :=
  match tableCode nbits w with
  | some c => (decode c).toOption
  | none => none

end Sys2Proof
end

