-- ==== Sys2Proof/Machine/PinOps.lean ====
section
/-! DEFINITION. Space U: the pin micro-operations (spec/40_pin_microops.md).  A meaning here performs the
micro-operation; the sequencer's advance is the `Micro` step's (`State.advance`, R171). -/

namespace Sys2Proof.Machine

open Sys2Proof

/-- R102. -/
def execClkLo (s : State) : Result := .next (s.drive .clkLo)

/-- R101. -/
def execClkHi (s : State) : Result := .next (s.drive .clkHi)

/-- R104. -/
def execDioLo (s : State) : Result := .next (s.drive .dioLo)

/-- R103. -/
def execDioHi (s : State) : Result := .next (s.drive .dioHi)

/-- R106. -/
def execDioDirOut (s : State) : Result := .next (s.drive .dioDirOut)

/-- R105. -/
def execDioDirIn (s : State) : Result := .next (s.drive .dioDirIn)

/-- R107: with `DIO_DIR = IN` the sample; with `DIO_DIR = OUT` it is outside the spec and refused (U6). -/
def execDioSample (s : State) : Result :=
  match s.lines.dioDir with
  | .inp => .next s.sample
  | .out => .refused .sampleWhileOutput

/-- Code 7 is unused (R89); that it is refused is the model's choice (log entry 9). -/
def execReservedU7 (_ : State) : Result := .refused .unusedMicroop

/-- One micro-operation of a list. -/
def performUop (u : Uop) (s : State) : Result :=
  match u with
  | .clkLo => execClkLo s
  | .clkHi => execClkHi s
  | .dioLo => execDioLo s
  | .dioHi => execDioHi s
  | .dioDirOut => execDioDirOut s
  | .dioDirIn => execDioDirIn s
  | .dioSample => execDioSample s

/-- The micro-operations of a list, one after the other (R63). -/
def performAll : List Uop → State → Result
  | [], s => .next s
  | u :: us, s => thenDo (performUop u s) (performAll us)

end Sys2Proof.Machine
end

