-- ==== Sys2Proof/Machine/BusOps.lean ====
section
/-! DEFINITION. Space B: the Bus Transport primitives (spec/41_bus_transport.md).  A primitive is a fixed list of
micro-operations (R120); its meaning performs the list in order (R63). -/

namespace Sys2Proof.Machine

open Sys2Proof

/-- R121. -/
def busInitUops : List Uop := [.dioDirOut, .clkHi, .dioHi]

/-- R122. -/
def startUops : List Uop := [.clkHi, .dioHi, .dioLo, .clkLo]

/-- R123. -/
def stopUops : List Uop := [.clkLo, .dioLo, .clkHi, .dioHi]

/-- `BIT(v)` of R124. -/
def bitUops (v : Bool) : List Uop := [.clkLo, if v then .dioHi else .dioLo, .clkHi]

/-- R125. -/
def readAckUops : List Uop := [.clkLo, .dioDirIn, .dioHi, .clkHi, .dioSample, .clkLo, .dioDirOut]

/-- R124: bit 0 first. -/
def sendByteUops (b : Byte) : List Uop :=
  bitUops (b.getLsbD 0) ++ bitUops (b.getLsbD 1) ++ bitUops (b.getLsbD 2) ++ bitUops (b.getLsbD 3) ++
  bitUops (b.getLsbD 4) ++ bitUops (b.getLsbD 5) ++ bitUops (b.getLsbD 6) ++ bitUops (b.getLsbD 7) ++ readAckUops

/-- R126. -/
def cmdFrameUops (b : Byte) : List Uop := startUops ++ sendByteUops b ++ stopUops

/-- `BUS_INIT` (R121). -/
def execBusInit (s : State) : Result := performAll busInitUops s

/-- `START` (R122). -/
def execStart (s : State) : Result := performAll startUops s

/-- `STOP` (R123). -/
def execStop (s : State) : Result := performAll stopUops s

/-- `SEND_BYTE(b)` (R124). -/
def execSendByte (b : Byte) (s : State) : Result := performAll (sendByteUops b) s

/-- `READ_ACK` (R125). -/
def execReadAck (s : State) : Result := performAll readAckUops s

/-- `CMD_FRAME(b)` (R126). -/
def execCmdFrame (b : Byte) (s : State) : Result := performAll (cmdFrameUops b) s

end Sys2Proof.Machine
end

