-- ==== Sys2Proof/Machine/WireOps.lean ====
section
/-! DEFINITION. Space W: the bytes the block puts on the wire (spec/30_encoding.md sections 2 and 3).

The spec gives a wire byte its place in a frame, and that place is its meaning here: `CTRL` and `DATA` are each sent as
a frame of shape F1 (R74, R76, R77), `ADDR` opens a frame of shape F2 (R75, R78), and `PATTERN` is one of the bytes that
follow in it (R75, R79).  DEDUCED: log entry 7. -/

namespace Sys2Proof.Machine

open Sys2Proof

/-- The display control command byte, alone in a frame F1 (R74, R76). -/
def execCtrl (on : Bool) (lvl : BitVec 3) (s : State) : Result := performAll (cmdFrameUops (ctrlByte on lvl)) s

/-- `CMD_DATA`, alone in a frame F1 (R74, R77). -/
def execData (s : State) : Result := performAll (cmdFrameUops s.params.cmdData) s

/-- `CMD_ADDR`, the first byte of a frame F2 with the start-condition before it (R75, R78). -/
def execAddr (s : State) : Result := performAll (startUops ++ sendByteUops s.params.cmdAddr) s

/-- A pattern byte inside a frame F2 (R75, R79). -/
def execPattern (colonDp : Bool) (segments : BitVec 7) (s : State) : Result :=
  performAll (sendByteUops (patternByte colonDp segments)) s

end Sys2Proof.Machine
end

