-- ==== Sys2Proof/Machine/Dispatch.lean ====
section
/-! DEFINITION. The meaning of each instruction. -/

namespace Sys2Proof.Machine

open Sys2Proof

def exec (i : Instr) (s : State) : Host.Outcome State Fault Refusal :=
  match i with
  | .init => Sys2Proof.Machine.execInit s
  | .bright level => Sys2Proof.Machine.execBright level s
  | .showDec value colon => Sys2Proof.Machine.execShow value colon s
  | .reservedH3 => Sys2Proof.Machine.execReservedH3 s
  | .ctrl on lvl => Sys2Proof.Machine.execCtrl on lvl s
  | .data => Sys2Proof.Machine.execData s
  | .addr => Sys2Proof.Machine.execAddr s
  | .pattern colonDp segments => Sys2Proof.Machine.execPattern colonDp segments s
  | .busInit => Sys2Proof.Machine.execBusInit s
  | .start => Sys2Proof.Machine.execStart s
  | .stop => Sys2Proof.Machine.execStop s
  | .sendByte b => Sys2Proof.Machine.execSendByte b s
  | .readAck => Sys2Proof.Machine.execReadAck s
  | .cmdFrame b => Sys2Proof.Machine.execCmdFrame b s
  | .clkLo => Sys2Proof.Machine.execClkLo s
  | .clkHi => Sys2Proof.Machine.execClkHi s
  | .dioLo => Sys2Proof.Machine.execDioLo s
  | .dioHi => Sys2Proof.Machine.execDioHi s
  | .dioDirOut => Sys2Proof.Machine.execDioDirOut s
  | .dioDirIn => Sys2Proof.Machine.execDioDirIn s
  | .dioSample => Sys2Proof.Machine.execDioSample s
  | .reservedU7 => Sys2Proof.Machine.execReservedU7 s

end Sys2Proof.Machine
end

