-- ==== Sys2Proof/Machine/Flags.lean ====
section
/-! DEFINITION. The three flags and the position at the end of a micro-operation, the derived phase, and the block's
output ports (spec/10_state.md sections 3 to 5). -/

namespace Sys2Proof.Machine

open Sys2Proof

/-- `len(prog(op))` (R172); the reserved opcode has no list. -/
def progLen (op : BitVec 2) : Nat :=
  match op.toNat with
  | 0 => 42
  | 1 => 39
  | 2 => 202
  | _ => 0

/-- What the `Micro` step writes after its micro-operation (R171, R175): `BUSY`, `UPC` and `INITED`. -/
def State.advance (s : State) : State :=
  if s.upc.toNat + 1 = progLen s.op then
    { s with upc := 0, busy := false, inited := s.inited || s.op == 0 }
  else { s with upc := s.upc + 1 }

/-- The source's conceptual states (R28). -/
inductive Phase where
  | idle | busyCtrl | modeCommandSent | addressSet | digit0Sent | digit1Sent | digit2Sent | digit3Sent
deriving DecidableEq, Repr

/-- `PHASE`, a view of (`BUSY`, `OP`, `UPC`) (R28).  DESIGN CHOICE: at a busy position outside the three lists, which no
run reaches, R28 names no phase; here it is `BUSY_CTRL` unless `OP` is that of `SHOW`, and `DIGIT_3_SENT` for `SHOW` with
`UPC` at 202 or above (log entry 13). -/
def State.phase (s : State) : Phase :=
  let done := s.upc.toNat
  if s.busy = false then .idle
  else if s.op ≠ 2 ∨ done < 39 then .busyCtrl
  else if done < 74 then .modeCommandSent
  else if done < 105 then .addressSet
  else if done < 136 then .digit0Sent
  else if done < 167 then .digit1Sent
  else if done < 198 then .digit2Sent
  else .digit3Sent

/-- The phase codes of R90. -/
def Phase.code : Phase → Nat
  | .idle => 0
  | .busyCtrl => 1
  | .modeCommandSent => 2
  | .addressSet => 3
  | .digit0Sent => 4
  | .digit1Sent => 5
  | .digit2Sent => 6
  | .digit3Sent => 7

/-- The output ports of R33. -/
structure Outputs where
  cmdReady : Bool
  busy : Bool
  inited : Bool
  ackLast : Bool
  clkPullLow : Bool
  dioPullLow : Bool
deriving DecidableEq, Repr

/-- The output ports as functions of the state (R33). -/
def State.outputs (s : State) : Outputs :=
  { cmdReady := !s.busy
    busy := s.busy
    inited := s.inited
    ackLast := s.ackLast
    clkPullLow := !s.lines.clkOut
    dioPullLow := s.lines.dioDir == .out && !s.lines.dioOut }

end Sys2Proof.Machine
end

