-- ==== Sys2Proof/Machine/Sequencer.lean ====
section
/-! DEFINITION. The sequencer: the lists `prog(op)` (R163 to R165), their closed form `uop(op, n)` (R172), and the fetch
of the micro-operation that a `Micro` step performs (R171). -/

namespace Sys2Proof.Machine

open Sys2Proof

/-- `prog(op)`, flattened, with the bytes it sends (R163, R164, R165). -/
def prog (p : Params) (cmdb : Byte) (buf : Vector Byte 4) (op : BitVec 2) : List Uop :=
  match op.toNat with
  | 0 => busInitUops ++ cmdFrameUops cmdb
  | 1 => cmdFrameUops cmdb
  | 2 =>
    cmdFrameUops p.cmdData ++ startUops ++ sendByteUops p.cmdAddr ++ sendByteUops buf[0] ++ sendByteUops buf[1] ++
      sendByteUops buf[2] ++ sendByteUops buf[3] ++ stopUops
  | _ => []

/-- `byte_uop(b, j)` (R172). -/
def byteUop (b : Byte) (j : Nat) : Uop :=
  if j < 24 then
    match j % 3 with
    | 0 => .clkLo
    | 1 => if b.getLsbD (j / 3) then .dioHi else .dioLo
    | _ => .clkHi
  else
    match j with
    | 24 => .clkLo
    | 25 => .dioDirIn
    | 26 => .dioHi
    | 27 => .clkHi
    | 28 => .dioSample
    | 29 => .clkLo
    | _ => .dioDirOut

/-- `start_uop(j)` (R172). -/
def startUop (j : Nat) : Uop :=
  match j with
  | 0 => .clkHi
  | 1 => .dioHi
  | 2 => .dioLo
  | _ => .clkLo

/-- `stop_uop(j)` (R172). -/
def stopUop (j : Nat) : Uop :=
  match j with
  | 0 => .clkLo
  | 1 => .dioLo
  | 2 => .clkHi
  | _ => .dioHi

/-- `frame_uop(b, n)` (R172). -/
def frameUop (b : Byte) (n : Nat) : Uop :=
  if n < 4 then startUop n else if n < 35 then byteUop b (n - 4) else stopUop (n - 35)

/-- The three micro-operations of `BUS_INIT` by index (R121, R172). -/
def busInitUop (n : Nat) : Uop :=
  match n with
  | 0 => .dioDirOut
  | 1 => .clkHi
  | _ => .dioHi

/-- `BUF[k]`, `k` in 0..3 (R52, R54). -/
def bufAt (buf : Vector Byte 4) (k : Nat) : Byte :=
  match k with
  | 0 => buf[0]
  | 1 => buf[1]
  | 2 => buf[2]
  | _ => buf[3]

/-- `uop(op, n)` (R172); outside the lists there is no micro-operation. -/
def uopAt (p : Params) (cmdb : Byte) (buf : Vector Byte 4) (op : BitVec 2) (n : Nat) : Option Uop :=
  if n < progLen op then
    match op.toNat with
    | 0 => some (if n < 3 then busInitUop n else frameUop cmdb (n - 3))
    | 1 => some (frameUop cmdb n)
    | _ =>
      some (if n < 39 then frameUop p.cmdData n
        else if n < 43 then startUop (n - 39)
        else if n < 74 then byteUop p.cmdAddr (n - 43)
        else if n < 198 then byteUop (bufAt buf ((n - 74) / 31)) ((n - 74) % 31)
        else stopUop (n - 198))
  else none

/-- The micro-operation at the sequencer's position, `uop(OP, UPC)` (R171). -/
def State.currentUop (s : State) : Option Uop := uopAt s.params s.cmdb s.buf s.op s.upc.toNat

/-- What a `Micro` step performs.  A busy position outside every list is unreachable; it reads as the unused code 7
(log entry 9). -/
def State.fetch (s : State) : Instr :=
  match s.currentUop with
  | some u => u.toInstr
  | none => .reservedU7

/-- The list of the operation in progress. -/
def State.prog (s : State) : List Uop := Machine.prog s.params s.cmdb s.buf s.op

/-- Where a micro-operation code stands in the fixed lists, as (`OP`, `UPC`) (R172): the places of `prog(BRIGHT)`, and for
the unused code 7 the opcode that has no list. -/
def uopPlace (code : BitVec 3) : BitVec 2 × BitVec 8 :=
  match code.toNat with
  | 0 => (1, 3)
  | 1 => (1, 0)
  | 2 => (1, 2)
  | 3 => (1, 1)
  | 4 => (1, 34)
  | 5 => (1, 29)
  | 6 => (1, 32)
  | _ => (3, 0)

/-- `rst` low at the next step. -/
def State.rstLow (s : State) : State :=
  { s with rstIn := match s.rstIn with
    | [] => []
    | _ :: r => false :: r }

/-- The sequencer at position (`op`, `upc`) of an operation in progress. -/
def State.atPlace (s : State) (op : BitVec 2) (upc : BitVec 8) : State := { s with busy := true, op := op, upc := upc }

/-- The place of a micro-operation code.  The sample's place lies where the data line is an input (R36, R107). -/
def State.atUop (s : State) (code : BitVec 3) : State :=
  let t := s.atPlace (uopPlace code).1 (uopPlace code).2
  if code = 6 then { t with lines := { s.lines with dioDir := .inp } } else t

/-- A host command word laid out at another operand width: the same operation, and the operand sign-extended, or cut to
the narrower port (log entry 10). -/
def hostWordAt (xlen : Nat) {w : Nat} (cw : BitVec (w + 3)) : BitVec (xlen + 3) :=
  hostWord (opField cw) (colonField cw) ((argField cw).signExtend xlen)

/-- The state with a code placed where the next step takes its instruction from: a host command word on the port of an
idle block (R160), a micro-operation code at a place of the fixed lists that holds it (R172), and a wire byte at the place
whose list sends it, in the register or list that sends it (R163 to R165).  A bus primitive has no place (R120): see
log entry 10. -/
def State.placeCode (c : Code) (s : State) : State :=
  match c with
  | .host _ cw => { s.rstLow with busy := false, cmdIn := (hostWordAt s.params.xlen cw).toNat :: s.cmdIn }
  | .uop code => s.rstLow.atUop code
  | .frameByte b => if b = 0x40#8 then s.rstLow.atPlace 2 0 else { s.rstLow.atPlace 1 0 with cmdb := b }
  | .addrByte _ => s.rstLow.atPlace 2 39
  | .dataByte b => { s.rstLow.atPlace 2 74 with buf := s.buf.set 0 b }
  | .prim _ _ => s

end Sys2Proof.Machine
end

