-- ==== Sys2Proof/Machine/Step.lean ====
section
/-! DEFINITION. One step of the machine (R6), and where a step takes its instruction from. -/

namespace Sys2Proof.Machine

open Sys2Proof

/-- The `Micro` step (R171): the micro-operation at the position, then the advance. -/
def microStep (s : State) : Result := thenDo (exec s.fetch s) (fun t => .next t.advance)

/-- The step of an idle block (R161): `Accept` of the presented word, or nothing while none is presented (V76). -/
def idleStep (s : State) : Result :=
  match s.cmdIn with
  | [] => .next s
  | n :: rest => exec (decodeHost (portWord s.params n)) { s with cmdIn := rest }

/-- One step.  `rst` is sampled first and wins (R195, R220); then `BUSY` decides between `Micro` and `Accept`
(R6, R196). -/
def step (s : State) : Host.Outcome State Fault Refusal :=
  if s.rstNow then .next s.tick.takeReset
  else if s.busy then microStep s.tick
  else idleStep s.tick

/-- `n` steps, ended by the first refusal. -/
def steps : Nat → State → Result
  | 0, s => .next s
  | n + 1, s => thenDo (step s) (steps n)

/-- The state whose next step takes its instruction from the opcode-table word `w` (log entry 10). -/
def State.withFetchWord (s : State) (nbits w : Nat) : State :=
  match tableCode nbits w with
  | some c => s.placeCode c
  | none => s

end Sys2Proof.Machine
end

