-- ==== Sys2Proof/Machine/Monitor.lean ====
section
/-! DEFINITION. The bus monitor (R129, R132): from a pin trace, replayed from the reset state, to the frames on the
wire.  It observes the block's own outputs and is no part of the machine (R8, R34). -/

namespace Sys2Proof.Machine

open Sys2Proof

/-- What one step does on the block's two outputs (R129). -/
inductive WireEvent where
  | start | stop | pulse
deriving DecidableEq, Repr

/-- The event between the lines before a micro-operation and after it (R129). -/
def wireEvent (before after : Lines) : Option WireEvent :=
  if before.clkOut && after.clkOut && before.ownDio && !after.ownDio then some .start
  else if before.clkOut && after.clkOut && !before.ownDio && after.ownDio then some .stop
  else if !before.clkOut && after.clkOut then some .pulse
  else none

/-- A frame as `monitor` returns it: each byte with its acknowledgment bit (R132). -/
abbrev Frame := List (Byte × Bool)

/-- `bits[0] + 2*bits[1] + ... + 128*bits[7]` (R132).  DESIGN CHOICE: at a sample inside a frame before eight data bits
were collected the pseudocode reads bits that are not there and gives no value; here a missing bit counts 0.  No trace of
a run reaches it (log entry 11). -/
def byteOfBits (bits : List Bool) : Byte :=
  (List.range 8).foldl (fun b i => if bits.getD i false then b ||| (1#8 <<< i) else b) 0

/-- The variables of R132's pseudocode; `cur = none` outside a frame. -/
structure Monitor where
  lines : Lines
  cur : Option Frame
  bits : List Bool
  count : Nat
  frames : List Frame
deriving DecidableEq, Repr

/-- The monitor before the first entry, at lines `l`. -/
def Monitor.initial (l : Lines) : Monitor := { lines := l, cur := none, bits := [], count := 0, frames := [] }

/-- The if-chain of R132 on the wire event of one entry.  A stop event outside a frame, for which the pseudocode has
nothing to append, ends nothing (log entry 11). -/
def Monitor.onEvent (m : Monitor) (e : Option WireEvent) (dio : Bool) : Monitor :=
  match e with
  | some .start => { m with cur := some [], bits := [], count := 0 }
  | some .stop =>
    match m.cur with
    | some f => { m with frames := m.frames ++ [f], cur := none }
    | none => m
  | some .pulse =>
    match m.cur with
    | some _ =>
      { m with count := m.count + 1, bits := if (m.count + 1) % 9 ≠ 0 then m.bits ++ [dio] else m.bits }
    | none => m
  | none => m

/-- The last clause of R132: the acknowledgment of the ninth pulse closes a byte. -/
def Monitor.onSample (m : Monitor) (e : PinEvent) : Monitor :=
  match e, m.cur with
  | .dioSample a, some f => { m with cur := some (f ++ [(byteOfBits m.bits, a)]), bits := [] }
  | _, _ => m

/-- One entry of the trace (R132). -/
def Monitor.next (m : Monitor) (e : PinEvent) : Monitor :=
  let after := m.lines.perform e.uop
  { (m.onEvent (wireEvent m.lines after) after.ownDio).onSample e with lines := after }

/-- The monitor's variables after a trace from the reset state. -/
def scan (trace : List PinEvent) : Monitor := trace.foldl Monitor.next (Monitor.initial Lines.idle)

/-- `monitor(trace)` of R132. -/
def monitor (trace : List PinEvent) : List Frame := (scan trace).frames

/-- The wire events of a list of micro-operations performed from lines `l` (R129). -/
def wireEvents : Lines → List Uop → List WireEvent
  | _, [] => []
  | l, u :: us => (wireEvent l (l.perform u)).toList ++ wireEvents (l.perform u) us

/-- The start and stop events among them, in order. -/
def framing (es : List WireEvent) : List WireEvent := es.filter (· ≠ .pulse)

/-- The start and stop events of a trace from the reset state (R131). -/
def traceFraming (trace : List PinEvent) : List WireEvent := framing (wireEvents Lines.idle (trace.map PinEvent.uop))

/-- Start and stop events alternate, beginning with a start (R131); `opened` says whether a start has its stop still to
come. -/
def alternates : Bool → List WireEvent → Bool
  | _, [] => true
  | false, .start :: es => alternates true es
  | true, .stop :: es => alternates false es
  | _, _ => false

end Sys2Proof.Machine
end

