-- ==== Sys2Proof/Safety.lean ====
section
/-! DEFINITION. What counts as a safe state and a safe run, in the terms the statements use. -/

namespace Sys2Proof.Machine

open Sys2Proof

/-- The lines after the first `n` micro-operations of a list performed from idle lines. -/
def linesAfter (us : List Uop) (n : Nat) : Lines := (us.take n).foldl (fun l u => l.perform u) Lines.idle

/-- The sequencer and the lines agree (R27, R36, R128).  Idle: idle lines and `UPC = 0`.  Busy: a position inside the
list of one of the three operations, and the lines as the list up to there leaves them. -/
abbrev State.Inv (s : State) : Prop :=
  (s.busy = false → s.lines = Lines.idle ∧ s.upc = 0) ∧
  (s.busy = true → s.upc.toNat < progLen s.op ∧ s.lines = linesAfter s.prog s.upc.toNat)

/-- The position lies after a start event whose stop event is still to come (R122, R123, R172). -/
def State.frameOpen (s : State) : Bool :=
  let n := s.upc.toNat
  s.busy &&
    match s.op.toNat with
    | 0 => 6 ≤ n
    | 1 => 3 ≤ n
    | _ => (3 ≤ n && n < 39) || 42 ≤ n

/-- The trace accounts for the lines and for the frame in progress (R131, R132). -/
abbrev State.Framed (s : State) : Prop :=
  (scan s.trace).lines = s.lines ∧ (scan s.trace).cur.isSome = s.frameOpen ∧
  alternates false (traceFraming s.trace) = true

/-- No reset at the next `n` steps: the runs that the frame claims are about (R224). -/
abbrev State.NoReset (s : State) (n : Nat) : Prop := ∀ b ∈ s.rstIn.take n, b = false

/-- The host's duties towards the words it has in store (R230, R232): no reserved opcode, and while `INITED = 0` the
operation in progress, or else the next word, is `INIT`. -/
abbrev State.HostDuties (s : State) : Prop :=
  (∀ n ∈ s.cmdIn, decodeHost (portWord s.params n) ≠ .reservedH3) ∧
  (s.inited = false → s.busy = true → s.op = 0) ∧
  (s.inited = false → s.busy = false → ∀ n ∈ s.cmdIn.take 1, decodeHost (portWord s.params n) = .init)

/-- The run is over: every word has been accepted and the block is idle (R9). -/
abbrev State.RunOver (s : State) : Prop := s.cmdIn = [] ∧ s.busy = false

end Sys2Proof.Machine
end

