-- ==== Sys2Proof/Certificates/Slice0/Obligations.lean ====
section
/-! DEFINITION. The statements for the provers.  The helpers below write out, from the spec's lists, what the statements
compare the machine's answers with. -/

namespace Sys2Proof.Machine

open Sys2Proof

/-- The trace entries of `READ_ACK` with sampled bit `a` (R125). -/
def ackEvents (a : Bool) : List PinEvent := [.clkLo, .dioDirIn, .dioHi, .clkHi, .dioSample a, .clkLo, .dioDirOut]

/-- The trace entries of `SEND_BYTE(b)` with sampled bit `a`: eight data writes, bit 0 first, then `READ_ACK` (R124). -/
def byteEvents (b : Byte) (a : Bool) : List PinEvent :=
  ((List.range 8).flatMap fun i => [.clkLo, if b.getLsbD i then .dioHi else .dioLo, .clkHi]) ++ ackEvents a

/-- The trace entries of `START` (R122). -/
def startEvents : List PinEvent := [.clkHi, .dioHi, .dioLo, .clkLo]

/-- The trace entries of `STOP` (R123). -/
def stopEvents : List PinEvent := [.clkLo, .dioLo, .clkHi, .dioHi]

/-- `s` after one byte cell: its sample drawn and shown in `ACK_LAST`, the lines `l` and the entries `es` added. -/
def State.afterCell (s : State) (l : Lines) (es : Bool → List PinEvent) : State :=
  { s with
    lines := l
    ackLast := s.nextLevel
    trace := s.trace ++ es s.nextLevel
    dioIn := s.dioIn.tail
    freeIdx := if s.dioIn.isEmpty then s.freeIdx + 1 else s.freeIdx }

/-- The lines after a byte cell: `CLK_OUT = 0`, `DIO_OUT = 1`, `DIO_DIR = OUT` (R128). -/
def Lines.afterByte : Lines := { clkOut := false, dioOut := true, dioDir := .out }

/-- The third micro-operation of a `START` (R122, R172). -/
def State.atStartThird (s : State) : Bool :=
  s.busy && [((0 : BitVec 2), 5), (1, 2), (2, 2), (2, 41)].contains (s.op, s.upc.toNat)

/-- The fourth micro-operation of a `STOP` (R123, R172). -/
def State.atStopFourth (s : State) : Bool :=
  s.busy && [((0 : BitVec 2), 41), (1, 38), (2, 38), (2, 201)].contains (s.op, s.upc.toNat)

/-- Between the `DIO_DIR_IN` and the `DIO_DIR_OUT` of a `READ_ACK` (R36, R172). -/
def State.inAckWindow (s : State) : Bool :=
  let n := s.upc.toNat
  s.busy &&
    match s.op.toNat with
    | 0 => 33 ≤ n && n ≤ 37
    | 1 => 30 ≤ n && n ≤ 34
    | _ => (30 ≤ n && n ≤ 34) || (43 ≤ n && n < 198 && 26 ≤ (n - 43) % 31 && (n - 43) % 31 ≤ 30)

/-- A row of R244's table for a list performed from lines `l`: its length, its samples, its clock pulses, its start events
and its stop events (R129). -/
def countsFrom (l : Lines) (us : List Uop) : Nat × Nat × Nat × Nat × Nat :=
  let es := wireEvents l us
  (us.length, us.count .dioSample, es.count .pulse, es.count .start, es.count .stop)

/-- The registers of R38 that no acknowledgment reaches, and the micro-operations performed (R127). -/
def State.apartFromAck (s : State) :
    Lines × Vector Byte 4 × Byte × BitVec 2 × BitVec 8 × Bool × Bool × List Uop × List Nat :=
  (s.lines, s.buf, s.cmdb, s.op, s.upc, s.busy, s.inited, s.trace.map PinEvent.uop, s.cmdIn)

end Sys2Proof.Machine

open Sys2Proof Sys2Proof.Machine

/-! ## Encodings -/

/-- Decoding an encoded well-formed instruction gives it back, at every `XLEN >= 16` and for every operand of that width
(R10, R12, R71 to R79, R89, R90), a primitive's byte standing beside its code and `DATA` and `ADDR` at the table's numbers
(the model's choice, log entries 5 and 6). -/
def Obligations.DecodeOfEncodeIsTheInstruction : Prop :=
  ∀ (xlen : Nat) (i : Instr), 16 ≤ xlen → i.wellFormed xlen = true → decode (encode xlen i) = .ok i

/-- The other direction for format H: every `BRIGHT` word with a clear colon bit and every `SHOW` word is the canonical
encoding of what it decodes to, at every operand width, so no bit of a used field is dropped (R71, R72, R87). -/
def Obligations.HostWordsHaveOneMeaning : Prop :=
  ∀ (xlen : Nat) (cw : BitVec (xlen + 3)),
    (opField cw = 1 → colonField cw = false → encode xlen (decodeHost cw) = .host xlen cw) ∧
    (opField cw = 2 → encode xlen (decodeHost cw) = .host xlen cw)

/-- R81: `INIT` ignores `colon` and `arg`, `BRIGHT` ignores `colon`; and the canonical encoding has zeros there; at every
operand width. -/
def Obligations.IgnoredFieldsHaveNoEffect : Prop :=
  ∀ xlen : Nat,
    (∀ (c : Bool) (a : BitVec xlen), decodeHost (hostWord 0 c a) = .init) ∧
    (∀ (c : Bool) (a : BitVec xlen), decodeHost (hostWord 1 c a) = .bright a.toInt) ∧
    encode xlen .init = .host xlen (hostWord 0 false 0) ∧
    ∀ level : Int, encode xlen (.bright level) = .host xlen (hostWord 1 false (BitVec.ofInt xlen level))

/-- Words written out from the spec's encodings (the examples of R87 at `XLEN = 32`, `BRIGHT -1` and `SHOW` words laid out
by R71 at `XLEN = 16`, the codes of R76 to R79, R89 and R90) decode to the instructions they stand for.  Two parts are the
model's choice: the byte beside the primitive code 3, for which R90 and R120 lay out no operand (log entry 5, DESIGN
CHOICE), and the numbers 0x40 and 0xC0 of `DATA` and `ADDR` in the decoder, which the spec takes from general knowledge
(log entry 6, DEDUCED). -/
def Obligations.SpecWordsDecodeAsWritten : Prop :=
  decode (.host 32 0x000000000#35) = .ok .init ∧
  decode (.host 32 0x200000005#35) = .ok (.bright 5) ∧
  decode (.host 32 0x5FFFFFFF8#35) = .ok (.showDec (-8) true) ∧
  decode (.host 32 0x600000000#35) = .ok .reservedH3 ∧
  decode (.host 16 0x2FFFF#19) = .ok (.bright (-1)) ∧
  decode (.host 16 0x504D2#19) = .ok (.showDec 1234 true) ∧
  decode (.frameByte 0b10001101#8) = .ok (.ctrl true 5) ∧
  decode (.frameByte 0b01000000#8) = .ok .data ∧
  decode (.addrByte 0b11000000#8) = .ok .addr ∧
  decode (.dataByte 0b10111111#8) = .ok (.pattern true 0x3F) ∧
  decode (.prim 0b011#3 (some 0x8D)) = .ok (.sendByte 0x8D) ∧
  decode (.prim 0b010#3 none) = .ok .stop ∧
  decode (.prim 0b110#3 none) = .error .unusedPrimitive ∧
  decode (.uop 0b101#3) = .ok .dioDirIn ∧
  decode (.uop 0b111#3) = .ok .reservedU7

/-! ## The step -/

/-- When nothing resets the block and it is idle, a step runs the presented word's instruction, with the word taken from
the port, whose `XLEN + 3` wires carry it (R6, R70, R160, R161). -/
def Obligations.StepRunsThePresentedWord : Prop :=
  ∀ (s : State) (n : Nat) (rest : List Nat),
    s.rstNow = false → s.busy = false → s.cmdIn = n :: rest →
    step s = exec (decodeHost (BitVec.ofNat (s.params.xlen + 3) n)) { s with cmdIn := rest, rstIn := s.rstIn.tail }

/-- R171: a busy block performs the micro-operation `uop(OP, UPC)`, then advances: at the end of the list `UPC` and
`BUSY` become 0 and `INIT` sets `INITED`; before it `UPC` moves by one. -/
def Obligations.MicroStepPerformsThenAdvances : Prop :=
  ∀ (s : State) (u : Uop), s.rstNow = false → s.busy = true → s.currentUop = some u →
    step s =
      thenDo (exec u.toInstr { s with rstIn := s.rstIn.tail }) fun t =>
        .next (if s.upc.toNat + 1 = s.prog.length then
            { t with upc := 0, busy := false, inited := if s.op = 0 then true else t.inited }
          else { t with upc := s.upc + 1 })

/-- R161 whole, at every `XLEN`: the two refusals in their order, then what each operation latches, and nothing else. -/
def Obligations.AcceptChecksThenLatches : Prop :=
  ∀ (s : State) (n : Nat) (rest : List Nat),
    s.rstNow = false → s.busy = false → s.cmdIn = n :: rest →
    let cw : BitVec (s.params.xlen + 3) := portWord s.params n
    let s0 : State := { s with rstIn := s.rstIn.tail, cmdIn := rest, upc := 0, busy := true }
    (opField cw = 3 → step s = .refused .reservedOpcode) ∧
    (opField cw = 1 ∨ opField cw = 2 → s.inited = false → step s = .refused .beforeInit) ∧
    (opField cw = 0 → step s = .next { s0 with op := 0, cmdb := ctrlOf (operand s.params s.params.initLevel) }) ∧
    (opField cw = 1 → s.inited = true → step s = .next { s0 with op := 1, cmdb := ctrlOf (argField cw) }) ∧
    (opField cw = 2 → s.inited = true →
      step s = .next { s0 with op := 2, buf := segEncode s.params.seg (argField cw) (colonField cw) })

/-- R220 and R195: when `rst = 1` the `Reset` step is taken whatever else is true of the state, and nothing else happens:
every register gets its reset value, three of them values that are not specified, and the presented word stays. -/
def Obligations.ResetStepWins : Prop :=
  ∀ s : State, s.rstNow = true →
    ∃ (op : BitVec 2) (cmdb : Byte) (buf : Vector Byte 4),
      step s = .next
        { s with
          lines := { clkOut := true, dioOut := true, dioDir := .out }
          busy := false, upc := 0, inited := false, ackLast := true
          op := op, cmdb := cmdb, buf := buf, trace := []
          rstIn := s.rstIn.tail, freeIdx := s.freeIdx + 1 }

/-- The reset values that R38 specifies, and what the host sees then (R222). -/
def Obligations.ResetStateHoldsTheResetValues : Prop :=
  State.reset.lines = { clkOut := true, dioOut := true, dioDir := .out } ∧ State.reset.upc = 0 ∧
  State.reset.busy = false ∧ State.reset.inited = false ∧ State.reset.ackLast = true ∧ State.reset.trace = [] ∧
  State.reset.outputs.busy = false ∧ State.reset.outputs.cmdReady = true ∧ State.reset.outputs.inited = false ∧
  State.reset.outputs.ackLast = true

/-- The model's choice for V76: while no word is presented and nothing resets it, an idle block stays as it is
(log entry 4). -/
def Obligations.IdleBlockWithoutAWordStaysIdle : Prop :=
  ∀ s : State, s.rstNow = false → s.busy = false → s.cmdIn = [] → step s = .next { s with rstIn := s.rstIn.tail }

/-- R160, R162, R66: while `BUSY = 1` the port is not looked at: whatever words stand there, the step does the same and
leaves them there. -/
def Obligations.BusyBlockDoesNotLookAtThePort : Prop :=
  ∀ (s t : State) (words : List Nat), s.busy = true → step s = .next t →
    t.cmdIn = s.cmdIn ∧ step { s with cmdIn := words } = .next { t with cmdIn := words }

/-- V74 for the instructions themselves: a host operation presented while `BUSY = 1` changes nothing. -/
def Obligations.HostOperationsOnABusyBlockChangeNothing : Prop :=
  ∀ (s : State) (level value : Int) (colon : Bool), s.busy = true →
    exec .init s = .next s ∧ exec (.bright level) s = .next s ∧ exec (.showDec value colon) s = .next s

/-! ## The host operations -/

/-- `INIT` on an idle block: accepted whether `INITED` is 0 or 1; `CMDB` gets `ctrl(INIT_LEVEL)` (R161, R163, R167), the
level in the `XLEN` bits that parameters in their range give it (R10). -/
def Obligations.InitIsAcceptedWheneverIdle : Prop :=
  ∀ s : State, s.busy = false →
    exec .init s =
      .next { s with op := 0, cmdb := ctrlOf (operand s.params s.params.initLevel), upc := 0, busy := true } ∧
    (s.params.Ok → (operand s.params s.params.initLevel).toInt = s.params.initLevel)

/-- `BRIGHT level` on an idle, initialised block latches `ctrl(level)` (R161, R164), the level in `XLEN` bits; a
well-formed level is its own value there (R12). -/
def Obligations.BrightLatchesItsControlByte : Prop :=
  ∀ (s : State) (level : Int), s.busy = false → s.inited = true →
    exec (.bright level) s = .next { s with op := 1, cmdb := ctrlOf (operand s.params level), upc := 0, busy := true } ∧
    (16 ≤ s.params.xlen → (Instr.bright level).wellFormed s.params.xlen = true →
      (operand s.params level).toInt = level)

/-- `SHOW value, colon` on an idle, initialised block latches its four patterns (R161, R165), the value in `XLEN` bits; a
well-formed value is its own value there (R12). -/
def Obligations.ShowLatchesItsFourPatterns : Prop :=
  ∀ (s : State) (value : Int) (colon : Bool), s.busy = false → s.inited = true →
    exec (.showDec value colon) s =
      .next { s with
        op := 2, buf := segEncode s.params.seg (operand s.params value) colon, upc := 0, busy := true } ∧
    (16 ≤ s.params.xlen → (Instr.showDec value colon).wellFormed s.params.xlen = true →
      (operand s.params value).toInt = value)

/-- R167: on an idle block `BRIGHT` and `SHOW` are refused exactly while `INITED = 0`, and `INIT` itself is always
acceptable. -/
def Obligations.OperationsBeforeInitAreRefused : Prop :=
  ∀ (s : State) (level value : Int) (colon : Bool), s.busy = false →
    (s.inited = false →
      exec (.bright level) s = .refused .beforeInit ∧ exec (.showDec value colon) s = .refused .beforeInit) ∧
    (s.inited = true → (∃ t, exec (.bright level) s = .next t) ∧ ∃ t, exec (.showDec value colon) s = .next t) ∧
    ∃ t, exec .init s = .next t

/-- The two reserved codes are refused in every state.  That the `Accept` step refuses the opcode 3 is R84 and R166; that
`exec` refuses it on a busy block too is the model's reading (log entry 12, DEDUCED), and that the unused micro-operation
code 7 of R89 is refused is the model's choice (log entry 9, DESIGN CHOICE). -/
def Obligations.ReservedCodesAreRefused : Prop :=
  ∀ s : State, exec .reservedH3 s = .refused .reservedOpcode ∧ exec .reservedU7 s = .refused .unusedMicroop

/-! ## The encoder and the composer, for every operand width -/

/-- R144 to R146 with the colon off: the four bytes are the patterns of the low four decimal digits of the mathematical
absolute value, thousands first, for every value, the most negative one included. -/
def Obligations.EncodeShowsTheLowFourDigits : Prop :=
  ∀ (w : Nat) (seg : SegTable) (v : BitVec w),
    let m := v.toInt.natAbs
    ∃ (h0 : m / 1000 % 10 < 11) (h1 : m / 100 % 10 < 11) (h2 : m / 10 % 10 < 11) (h3 : m % 10 < 11),
      segEncode seg v false =
        #v[seg[m / 1000 % 10]'h0, seg[m / 100 % 10]'h1, seg[m / 10 % 10]'h2, seg[m % 10]'h3]

/-- R148 (b) and (c): the sign is ignored, and only the magnitude modulo 10000 is seen. -/
def Obligations.EncodeSeesTheMagnitudeModuloTenThousand : Prop :=
  (∀ (w : Nat) (seg : SegTable) (v : BitVec w) (colon : Bool), segEncode seg (-v) colon = segEncode seg v colon) ∧
  ∀ (w w' : Nat) (seg : SegTable) (v : BitVec w) (v' : BitVec w') (colon : Bool),
    v.toInt.natAbs % 10000 = v'.toInt.natAbs % 10000 → segEncode seg v colon = segEncode seg v' colon

/-- R147 and R148 (d): the colon sets the top bit of byte 1 and touches nothing else; under R141 the two byte-1 values
differ by 0x80 exactly. -/
def Obligations.ColonSetsTheTopBitOfByteOne : Prop :=
  ∀ (w : Nat) (p : Params) (v : BitVec w),
    (segEncode p.seg v true)[0] = (segEncode p.seg v false)[0] ∧
    (segEncode p.seg v true)[1] = (segEncode p.seg v false)[1] ||| 0x80#8 ∧
    (segEncode p.seg v true)[2] = (segEncode p.seg v false)[2] ∧
    (segEncode p.seg v true)[3] = (segEncode p.seg v false)[3] ∧
    (p.seg.Ok → (segEncode p.seg v true)[1].toNat = (segEncode p.seg v false)[1].toNat + 0x80)

/-- R54, R143: no encoding reads the blank entry: with another blank the bytes are the same. -/
def Obligations.BlankEntryIsNeverRead : Prop :=
  ∀ (w : Nat) (seg : SegTable) (blank : Byte) (v : BitVec w) (colon : Bool),
    segEncode (seg.set 10 blank) v colon = segEncode seg v colon

/-- R149: the three value classes of `ctrl`, by signed comparison over the whole operand. -/
def Obligations.CtrlHasThreeValueClasses : Prop :=
  ∀ (w : Nat) (level : BitVec w), 16 ≤ w →
    (level.toInt < 0 → ctrlOf level = 0x80) ∧
    (∀ n : Nat, n ≤ 7 → level.toInt = n → ctrlOf level = 0x88 ||| BitVec.ofNat 8 n) ∧
    (7 < level.toInt → ctrlOf level = 0x8F)

/-- R85: the composer produces a well-formed control command and no other byte. -/
def Obligations.CtrlNeverSendsAReservedByte : Prop :=
  ∀ (w : Nat) (level : BitVec w),
    ∃ (on : Bool) (lvl : BitVec 3), ctrlOf level = ctrlByte on lvl ∧ (Instr.ctrl on lvl).wellFormed w = true

/-! ## The pin micro-operations -/

/-- R101, R102: the two clock writes, also where the latch holds the value already, with the clock wire after them. -/
def Obligations.ClockWritesDriveTheClockLine : Prop :=
  decode (.uop 1) = .ok .clkHi ∧ decode (.uop 0) = .ok .clkLo ∧
  ∀ s : State,
    exec .clkHi s = .next { s with lines := { s.lines with clkOut := true }, trace := s.trace ++ [.clkHi] } ∧
    exec .clkLo s = .next { s with lines := { s.lines with clkOut := false }, trace := s.trace ++ [.clkLo] } ∧
    (s.lines.perform .clkHi).wireClk = true ∧ (s.lines.perform .clkLo).wireClk = false

/-- R103, R104: the two data writes.  With `DIO_DIR = OUT` and the clock high the rise is a stop event and the fall a
start event; with `DIO_DIR = IN` the latch is written and the line not driven; a line that the peripheral holds low stays
low; and the sequencer never performs `DIO_LO` while the line is an input. -/
def Obligations.DataWritesDriveTheDataLine : Prop :=
  decode (.uop 3) = .ok .dioHi ∧ decode (.uop 2) = .ok .dioLo ∧
  (∀ s : State,
    exec .dioHi s = .next { s with lines := { s.lines with dioOut := true }, trace := s.trace ++ [.dioHi] } ∧
    exec .dioLo s = .next { s with lines := { s.lines with dioOut := false }, trace := s.trace ++ [.dioLo] } ∧
    (s.lines.dioDir = .inp →
      (s.lines.perform .dioHi).ownDio = true ∧ (s.lines.perform .dioLo).ownDio = true ∧ s.lines.ownDio = true) ∧
    (s.lines.perform .dioHi).wireDio false = false ∧
    (s.lines = { clkOut := true, dioOut := false, dioDir := .out } →
      wireEvent s.lines (s.lines.perform .dioHi) = some .stop) ∧
    (s.lines = { clkOut := true, dioOut := true, dioDir := .out } →
      wireEvent s.lines (s.lines.perform .dioLo) = some .start)) ∧
  ∀ s : State, s.Inv → s.busy = true → s.currentUop = some .dioLo → s.lines.dioDir = .out

/-- R105, R106: the two direction writes; as an input the block's own contribution is 1 whatever `DIO_OUT` holds, as an
output it is `DIO_OUT`.  The sequencer turns the line round only while the clock is low. -/
def Obligations.DirectionWritesTurnTheDataLineRound : Prop :=
  decode (.uop 5) = .ok .dioDirIn ∧ decode (.uop 4) = .ok .dioDirOut ∧
  (∀ s : State,
    exec .dioDirIn s = .next { s with lines := { s.lines with dioDir := .inp }, trace := s.trace ++ [.dioDirIn] } ∧
    exec .dioDirOut s = .next { s with lines := { s.lines with dioDir := .out }, trace := s.trace ++ [.dioDirOut] } ∧
    (s.lines.perform .dioDirIn).ownDio = true ∧ (s.lines.perform .dioDirOut).ownDio = s.lines.dioOut) ∧
  ∀ s : State, s.Inv → s.busy = true →
    (s.currentUop = some .dioDirIn → s.lines.clkOut = false) ∧
    (s.currentUop = some .dioDirOut →
      s.lines = Lines.idle ∨ s.lines = { clkOut := false, dioOut := true, dioDir := .inp })

/-- R107: with the line an input, `ACK_LAST` and the trace entry take the level the environment gives, the next listed one
or a free one (log entry 4); with the line an output the sample is refused (U6); and the sequencer samples only as R107 says. -/
def Obligations.SampleLatchesTheGivenLevel : Prop :=
  decode (.uop 6) = .ok .dioSample ∧
  (∀ (s : State) (b : Bool) (rest : List Bool), s.lines.dioDir = .inp → s.dioIn = b :: rest →
    exec .dioSample s = .next { s with ackLast := b, dioIn := rest, trace := s.trace ++ [.dioSample b] }) ∧
  (∀ s : State, s.lines.dioDir = .inp → s.dioIn = [] →
    exec .dioSample s = .next
      { s with
        ackLast := Config.freeLevel s.freeIdx, freeIdx := s.freeIdx + 1
        trace := s.trace ++ [.dioSample (Config.freeLevel s.freeIdx)] }) ∧
  (∀ s : State, s.lines.dioDir = .out → exec .dioSample s = .refused .sampleWhileOutput) ∧
  ∀ s : State, s.Inv → s.busy = true → s.currentUop = some .dioSample →
    s.lines.dioDir = .inp ∧ s.lines.clkOut = true

/-! ## The bus primitives -/

/-- R121: `BUS_INIT` from any state; on idle lines none of its writes changes a line. -/
def Obligations.BusInitLeavesTheLinesIdle : Prop :=
  (∀ s : State, exec .busInit s =
    .next { s with lines := Lines.idle, trace := s.trace ++ [.dioDirOut, .clkHi, .dioHi] }) ∧
  ∀ n, linesAfter busInitUops n = Lines.idle

/-- R122: `START`; on an idle bus its one wire event is the start event of its third write. -/
def Obligations.StartPullsDataThenClock : Prop :=
  (∀ s : State, exec .start s =
    .next { s with lines := { s.lines with clkOut := false, dioOut := false }, trace := s.trace ++ startEvents }) ∧
  wireEvents Lines.idle startUops = [.start] ∧
  wireEvent (linesAfter startUops 2) (linesAfter startUops 3) = some .start

/-- R123: `STOP`; after a byte it makes one clock pulse and then the stop event of its fourth write, and ends idle. -/
def Obligations.StopRaisesClockThenData : Prop :=
  (∀ s : State, exec .stop s =
    .next { s with lines := { s.lines with clkOut := true, dioOut := true }, trace := s.trace ++ stopEvents }) ∧
  (∀ s t : State, s.lines = Lines.afterByte → exec .stop s = .next t → t.lines = Lines.idle) ∧
  wireEvents Lines.afterByte stopUops = [.pulse, .stop]

/-- R125: `READ_ACK` takes one sample into `ACK_LAST` and always turns the line back to an output. -/
def Obligations.ReadAckSamplesAndRestoresTheDirection : Prop :=
  ∀ s : State, exec .readAck s = .next (s.afterCell Lines.afterByte ackEvents)

/-- R124: `SEND_BYTE(b)` for every byte from every state: eight bits, least-significant first, then the
acknowledgment; nine clock pulses and no start or stop event from its entry states. -/
def Obligations.SendByteSendsEightBitsAndReadsTheAck : Prop :=
  ∀ (b : Byte) (s : State),
    exec (.sendByte b) s = .next (s.afterCell Lines.afterByte (byteEvents b)) ∧
    ∀ d : Bool, wireEvents { clkOut := false, dioOut := d, dioDir := .out } (sendByteUops b) = List.replicate 9 .pulse

/-- R126: `CMD_FRAME(b)` is `START`, the byte, `STOP`. -/
def Obligations.CmdFrameIsStartByteStop : Prop :=
  ∀ (b : Byte) (s : State),
    exec (.cmdFrame b) s =
      .next (s.afterCell Lines.idle fun a => startEvents ++ byteEvents b a ++ stopEvents) ∧
    exec (.cmdFrame b) s = thenDo (exec .start s) fun t => thenDo (exec (.sendByte b) t) (exec .stop)

/-! ## The bytes on the wire -/

/-- R74, R76, R77 as the model reads them (log entry 7): `CTRL` and `DATA` are each sent as a frame of shape F1. -/
def Obligations.ControlAndDataCommandsAreFrames : Prop :=
  (∀ (on : Bool) (lvl : BitVec 3) (s : State), exec (.ctrl on lvl) s =
    .next (s.afterCell Lines.idle fun a =>
      startEvents ++ byteEvents (0b1000#4 ++ BitVec.ofBool on ++ lvl) a ++ stopEvents)) ∧
  ∀ s : State, exec .data s =
    .next (s.afterCell Lines.idle fun a => startEvents ++ byteEvents s.params.cmdData a ++ stopEvents)

/-- R75, R78, R79 as the model reads them (log entry 7): `ADDR` is the start-condition and the address byte, and a
`PATTERN` byte follows without another start. -/
def Obligations.AddressOpensAFrameAndPatternsFollow : Prop :=
  (∀ s : State, exec .addr s =
    .next (s.afterCell Lines.afterByte fun a => startEvents ++ byteEvents s.params.cmdAddr a)) ∧
  ∀ (colonDp : Bool) (segments : BitVec 7) (s : State), exec (.pattern colonDp segments) s =
    .next (s.afterCell Lines.afterByte (byteEvents (BitVec.ofBool colonDp ++ segments)))

/-! ## The lists -/

/-- R172: the closed form `uop(op, n)` names the elements of the flattened lists, whose lengths are 42, 39 and 202. -/
def Obligations.ClosedFormIsTheFlattenedList : Prop :=
  ∀ (p : Params) (cmdb : Byte) (buf : Vector Byte 4),
    (∀ (op : BitVec 2) (n : Nat), uopAt p cmdb buf op n = (prog p cmdb buf op)[n]?) ∧
    (prog p cmdb buf 0).length = 42 ∧ (prog p cmdb buf 1).length = 39 ∧ (prog p cmdb buf 2).length = 202

/-- R244: the table's rows, each list performed from the lines it is entered with (R128), whatever bytes it sends. -/
def Obligations.ListsHaveTheCountsOfTheTable : Prop :=
  countsFrom Lines.idle busInitUops = (3, 0, 0, 0, 0) ∧
  countsFrom Lines.idle startUops = (4, 0, 0, 1, 0) ∧
  countsFrom Lines.afterByte stopUops = (4, 0, 1, 0, 1) ∧
  (∀ d, countsFrom { clkOut := true, dioOut := d, dioDir := .out } readAckUops = (7, 1, 1, 0, 0)) ∧
  (∀ b d, countsFrom { clkOut := false, dioOut := d, dioDir := .out } (sendByteUops b) = (31, 1, 9, 0, 0)) ∧
  (∀ b, countsFrom Lines.idle (cmdFrameUops b) = (39, 1, 10, 1, 1)) ∧
  ∀ (p : Params) (cmdb : Byte) (buf : Vector Byte 4),
    countsFrom Lines.idle (prog p cmdb buf 0) = (42, 1, 10, 1, 1) ∧
    countsFrom Lines.idle (prog p cmdb buf 1) = (39, 1, 10, 1, 1) ∧
    countsFrom Lines.idle (prog p cmdb buf 2) = (202, 6, 56, 2, 2)

/-! ## What each step leaves alone -/

/-- R23, R24, R25: `BUF`, `CMDB` and `OP` are written by `Accept` alone, each by the operations it belongs to. -/
def Obligations.DataRegistersAreWrittenOnlyByAccept : Prop :=
  ∀ s t : State, s.rstNow = false → step s = .next t →
    (s.busy = true → t.buf = s.buf ∧ t.cmdb = s.cmdb ∧ t.op = s.op) ∧
    (t.buf ≠ s.buf → ∃ n v c, s.cmdIn.head? = some n ∧ decodeHost (portWord s.params n) = .showDec v c) ∧
    (t.cmdb ≠ s.cmdb →
      ∃ n, s.cmdIn.head? = some n ∧
        (decodeHost (portWord s.params n) = .init ∨ ∃ level, decodeHost (portWord s.params n) = .bright level)) ∧
    (t.op ≠ s.op → s.busy = false ∧ s.cmdIn ≠ [])

/-- R30: only the last micro-operation of an `INIT` sets `INITED`, and no operation clears it. -/
def Obligations.InitedIsSetOnlyByTheEndOfInit : Prop :=
  ∀ s t : State, s.rstNow = false → step s = .next t →
    t.inited = (s.inited || (s.busy && s.op == 0 && s.upc.toNat == 41))

/-- R31: `ACK_LAST` is written by `DIO_SAMPLE` alone, and then with the level sampled. -/
def Obligations.AckLastIsWrittenOnlyBySamples : Prop :=
  ∀ s t : State, s.rstNow = false → step s = .next t →
    t.ackLast = if s.busy && s.currentUop == some .dioSample then s.nextLevel else s.ackLast

/-- R20, R21, R161: a step without a reset moves the line registers by the micro-operation it performs, and `Accept`
writes none of them. -/
def Obligations.LinesMoveOnlyByMicroOperations : Prop :=
  ∀ s t : State, s.rstNow = false → step s = .next t →
    (s.busy = false → t.lines = s.lines) ∧
    (s.busy = true → ∃ u, s.currentUop = some u ∧ t.lines = s.lines.perform u)

/-- R34, R64, R100: every `Micro` step appends exactly one entry, of the micro-operation it performed, and `Accept`
appends none. -/
def Obligations.TraceGrowsByTheMicroOperationPerformed : Prop :=
  ∀ s t : State, s.rstNow = false → step s = .next t →
    (s.busy = false → t.trace = s.trace) ∧
    (s.busy = true → ∃ e : PinEvent, s.currentUop = some e.uop ∧ t.trace = s.trace ++ [e])

/-- R37: no step changes a parameter (the model holds them in the state, log entry 3). -/
def Obligations.ParametersNeverChange : Prop :=
  ∀ s t : State, step s = .next t → t.params = s.params

/-- R28: during `SHOW` the phase code counts the thresholds passed; otherwise the phase is `IDLE` or `BUSY_CTRL`.  At the
busy positions outside the three lists, which no run reaches and for which R28 names no phase, it is the model's choice
that the same holds (log entry 13, DESIGN CHOICE). -/
def Obligations.PhaseCountsTheThresholdsPassed : Prop :=
  ∀ s : State,
    (s.busy = false → s.phase = .idle) ∧
    (s.busy = true → s.op ≠ 2 → s.phase = .busyCtrl) ∧
    (s.busy = true → s.op = 2 →
      s.phase.code = 1 + ([39, 74, 105, 136, 167, 198].filter (· ≤ s.upc.toNat)).length)

/-- R35, with the six output ports of R33 in every state: a line is low when a party pulls it low; as an input the block
pulls nothing whatever `DIO_OUT` holds; `cmd_ready` is the negation of `BUSY`, and `busy`, `inited` and `ack_last` show
`BUSY`, `INITED` and `ACK_LAST` (R29 to R31, R160, R176). -/
def Obligations.OpenDrainWiresFollowTheLatches : Prop :=
  ∀ (s : State) (p : Bool),
    s.lines.wireClk = s.lines.clkOut ∧ s.outputs.clkPullLow = !s.lines.wireClk ∧ s.outputs.dioPullLow = !s.lines.wireDio true ∧
    (s.lines.dioDir = .inp → s.lines.wireDio p = p ∧ s.outputs.dioPullLow = false) ∧
    (s.lines.dioDir = .out → s.lines.wireDio p = (s.lines.dioOut && p)) ∧
    s.outputs.cmdReady = !s.busy ∧ s.outputs.busy = s.busy ∧ s.outputs.inited = s.inited ∧
    s.outputs.ackLast = s.ackLast

/-! ## Invariants and whole-machine rules -/

/-- The reset state meets both invariants. -/
def Obligations.ResetStateMeetsTheInvariants : Prop :=
  State.reset.Inv ∧ State.reset.Framed

/-- R36, R128: every step keeps the sequencer and the lines in agreement; in particular idle lines and `UPC = 0` whenever
`BUSY = 0`. -/
def Obligations.EveryStepKeepsTheLinesInStep : Prop :=
  ∀ s t : State, s.Inv → step s = .next t → t.Inv

/-- R131: every step, a reset too, keeps the trace framed: start and stop events alternate, beginning with a start, and a
frame is open exactly where the position says so. -/
def Obligations.EveryStepKeepsTheTraceFramed : Prop :=
  ∀ s t : State, s.Inv → s.Framed → step s = .next t → t.Framed

/-- R131: on an idle block the start and stop events of the trace are balanced and no start is left open. -/
def Obligations.IdleTraceIsBalanced : Prop :=
  ∀ s : State, s.Framed → s.busy = false →
    (traceFraming s.trace).count .start = (traceFraming s.trace).count .stop ∧
    (traceFraming s.trace).getLast? ≠ some .start

/-- R171: a busy block always has its step: no micro-operation is refused where the invariant holds. -/
def Obligations.BusyBlockAlwaysSteps : Prop :=
  ∀ s : State, s.Inv → s.busy = true → ∃ t, step s = .next t

/-- R130, R36 (d): a start event happens at the third micro-operation of a `START` and nowhere else, a stop event at the
fourth of a `STOP` and nowhere else, and every other change of the block's data level happens with the clock low. -/
def Obligations.StartAndStopEventsOnlyAtTheirPlaces : Prop :=
  ∀ s t : State, s.Inv → s.rstNow = false → step s = .next t →
    (wireEvent s.lines t.lines = some .start ↔ s.atStartThird = true) ∧
    (wireEvent s.lines t.lines = some .stop ↔ s.atStopFourth = true) ∧
    (s.lines.ownDio ≠ t.lines.ownDio → s.atStartThird = false → s.atStopFourth = false →
      s.lines.clkOut = false ∧ t.lines.clkOut = false)

/-- R36 (b), R233: the data line is an input exactly inside the acknowledgment window. -/
def Obligations.DataLineIsInputOnlyInTheAckWindow : Prop :=
  ∀ s : State, s.Inv → (s.lines.dioDir = .inp ↔ s.inAckWindow = true)

/-- R127, R191: whatever the environment answers to the samples, and whatever `ACK_LAST` held, a run without a reset
performs the same micro-operations and leaves every other register the same. -/
def Obligations.AcknowledgmentsNeverAlterTheRun : Prop :=
  ∀ (n : Nat) (s t : State) (levels : List Bool) (ack : Bool), s.NoReset n → steps n s = .next t →
    ∃ t', steps n { s with dioIn := levels, ackLast := ack } = .next t' ∧ t'.apartFromAck = t.apartFromAck

/-- R9, R171, R175: from any point of an operation, a run without a reset performs the rest of its list and no more, stays
busy until then, and ends idle, with `INITED` set if it was an `INIT`. -/
def Obligations.EveryOperationRunsToCompletion : Prop :=
  ∀ s : State, s.Inv → s.busy = true → s.NoReset (progLen s.op - s.upc.toNat) →
    (∃ t, steps (progLen s.op - s.upc.toNat) s = .next t ∧
      t.busy = false ∧ t.lines = Lines.idle ∧ t.upc = 0 ∧ t.inited = (s.inited || s.op == 0) ∧
      t.trace.map PinEvent.uop = s.trace.map PinEvent.uop ++ s.prog.drop s.upc.toNat ∧
      t.op = s.op ∧ t.cmdb = s.cmdb ∧ t.buf = s.buf ∧ t.params = s.params ∧ t.cmdIn = s.cmdIn) ∧
    ∀ n, n < progLen s.op - s.upc.toNat → ∃ t, steps n s = .next t ∧ t.busy = true

/-- R163, R132: an accepted `INIT` puts one frame on the wire, with the byte `ctrl(INIT_LEVEL)`, and leaves the block idle
and initialised. -/
def Obligations.InitRunSendsOneFrame : Prop :=
  ∀ (s : State) (n : Nat) (rest : List Nat),
    s.Inv → s.Framed → s.busy = false → s.cmdIn = n :: rest →
    decodeHost (portWord s.params n) = .init → s.NoReset 43 →
    let b := ctrlOf (operand s.params s.params.initLevel)
    ∃ (t : State) (a : Bool), steps 43 s = .next t ∧ t.busy = false ∧ t.lines = Lines.idle ∧ t.inited = true ∧
      t.ackLast = a ∧ t.cmdIn = rest ∧
      t.trace.map PinEvent.uop =
        s.trace.map PinEvent.uop ++ busInitUops ++ cmdFrameUops b ∧
      monitor t.trace = monitor s.trace ++ [[(b, a)]] ∧
      (s.dioIn ≠ [] → s.dioIn = a :: t.dioIn)

/-- R164, R132: an accepted `BRIGHT level` puts one frame on the wire, with the byte `ctrl(level)`, also when the same
byte was sent before (R162). -/
def Obligations.BrightRunSendsOneFrame : Prop :=
  ∀ (s : State) (n : Nat) (rest : List Nat) (level : Int),
    s.Inv → s.Framed → s.busy = false → s.inited = true → s.cmdIn = n :: rest →
    decodeHost (portWord s.params n) = .bright level → s.NoReset 40 →
    let b := ctrlOf (operand s.params level)
    ∃ (t : State) (a : Bool), steps 40 s = .next t ∧ t.busy = false ∧ t.lines = Lines.idle ∧ t.inited = true ∧
      t.ackLast = a ∧ t.cmdIn = rest ∧ t.buf = s.buf ∧
      t.trace.map PinEvent.uop = s.trace.map PinEvent.uop ++ cmdFrameUops b ∧
      monitor t.trace = monitor s.trace ++ [[(b, a)]] ∧
      (s.dioIn ≠ [] → s.dioIn = a :: t.dioIn)

/-- R165, R168, R57, R132: an accepted `SHOW value, colon` puts two frames on the wire, the data command alone and then
the address command with the four patterns, thousands first, each byte with the bit the environment answered. -/
def Obligations.ShowRunSendsTwoFrames : Prop :=
  ∀ (s : State) (n : Nat) (rest : List Nat) (value : Int) (colon : Bool),
    s.Inv → s.Framed → s.busy = false → s.inited = true → s.cmdIn = n :: rest →
    decodeHost (portWord s.params n) = .showDec value colon → s.NoReset 203 →
    let b := segEncode s.params.seg (operand s.params value) colon
    ∃ (t : State) (a0 a1 a2 a3 a4 a5 : Bool), steps 203 s = .next t ∧ t.busy = false ∧ t.lines = Lines.idle ∧
      t.inited = true ∧ t.ackLast = a5 ∧ t.cmdIn = rest ∧ t.cmdb = s.cmdb ∧
      t.trace.map PinEvent.uop = s.trace.map PinEvent.uop ++ cmdFrameUops s.params.cmdData ++ startUops ++
        sendByteUops s.params.cmdAddr ++ sendByteUops b[0] ++ sendByteUops b[1] ++ sendByteUops b[2] ++
        sendByteUops b[3] ++ stopUops ∧
      monitor t.trace = monitor s.trace ++
        [[(s.params.cmdData, a0)],
         [(s.params.cmdAddr, a1), (b[0], a2), (b[1], a3), (b[2], a4), (b[3], a5)]] ∧
      (6 ≤ s.dioIn.length → s.dioIn = [a0, a1, a2, a3, a4, a5] ++ t.dioIn)

/-- The `Micro` steps of an operation are its bus primitives and wire bytes one after the other: `INIT` is `BUS_INIT` and
a frame, `BRIGHT` a frame, `SHOW` the data command, the address command, the four patterns and a `STOP`
(R163 to R165, R170). -/
def Obligations.MicroStepsComposeThePrimitives : Prop :=
  ∀ s : State, s.busy = true → s.upc = 0 →
    (s.op = 0 → s.NoReset 42 →
      steps 42 s = thenDo (exec .busInit { s with rstIn := s.rstIn.drop 42 }) fun t =>
        thenDo (exec (.cmdFrame s.cmdb) t) fun u => .next { u with busy := false, inited := true }) ∧
    (s.op = 1 → s.NoReset 39 →
      steps 39 s = thenDo (exec (.cmdFrame s.cmdb) { s with rstIn := s.rstIn.drop 39 }) fun t =>
        .next { t with busy := false }) ∧
    (s.op = 2 → s.NoReset 202 →
      steps 202 s = thenDo (exec .data { s with rstIn := s.rstIn.drop 202 }) fun t1 => thenDo (exec .addr t1) fun t2 =>
        thenDo (exec (decodeDataByte s.buf[0]) t2) fun t3 => thenDo (exec (decodeDataByte s.buf[1]) t3) fun t4 =>
        thenDo (exec (decodeDataByte s.buf[2]) t4) fun t5 => thenDo (exec (decodeDataByte s.buf[3]) t5) fun t6 =>
        thenDo (exec .stop t6) fun t7 => .next { t7 with busy := false })

/-- R230, R232: a host that keeps its duties is never refused: any number of steps without a reset goes through, and the
duties stay met. -/
def Obligations.DutifulHostIsNeverRefused : Prop :=
  ∀ (n : Nat) (s : State), s.Inv → s.HostDuties → s.NoReset n →
    ∃ t, steps n s = .next t ∧ t.Inv ∧ t.HostDuties

/-- R9: every run ends: with the duties kept and no reset in store, a number of steps bounded by the list of words leaves
every word accepted and the block idle. -/
def Obligations.EveryDutifulRunEnds : Prop :=
  ∀ s : State, s.Inv → s.HostDuties → (∀ b ∈ s.rstIn, b = false) →
    ∃ (n : Nat) (t : State), n ≤ 203 * (s.cmdIn.length + 1) ∧ steps n s = .next t ∧ t.RunOver
end

