-- ==== Sys2Proof/Laws/Decode.lean ====
section
/-! SUPPORT. The fields of a host command word, at every operand width: what is put in comes out, and a word is its
fields. -/

namespace Sys2Proof

@[simp] theorem opField_hostWord {xlen : Nat} (op : BitVec 2) (colon : Bool) (arg : BitVec xlen) :
    opField (hostWord op colon arg) = op := by
  apply BitVec.eq_of_getLsbD_eq
  intro i hi
  simp only [opField, hostWord, BitVec.getLsbD_extractLsb', BitVec.getLsbD_cast, BitVec.getLsbD_append]
  simp [hi, show ¬ xlen + 1 + i < xlen by omega, show ¬ xlen + 1 + i - xlen < 1 by omega,
    show xlen + 1 + i - xlen - 1 = i by omega]

@[simp] theorem colonField_hostWord {xlen : Nat} (op : BitVec 2) (colon : Bool) (arg : BitVec xlen) :
    colonField (hostWord op colon arg) = colon := by
  simp only [colonField, hostWord, BitVec.getLsbD_cast, BitVec.getLsbD_append]
  simp

@[simp] theorem argField_hostWord {xlen : Nat} (op : BitVec 2) (colon : Bool) (arg : BitVec xlen) :
    argField (hostWord op colon arg) = arg := by
  apply BitVec.eq_of_getLsbD_eq
  intro i hi
  simp [argField, hostWord, BitVec.getLsbD_append, hi]

/-- A word is `{op, colon, arg}` (R71). -/
@[simp] theorem hostWord_fields {xlen : Nat} (cw : BitVec (xlen + 3)) :
    hostWord (opField cw) (colonField cw) (argField cw) = cw := by
  apply BitVec.eq_of_getLsbD_eq
  intro i hi
  simp only [opField, colonField, argField, hostWord, BitVec.getLsbD_extractLsb', BitVec.getLsbD_cast,
    BitVec.getLsbD_append, BitVec.getLsbD_ofBool]
  by_cases h : i < xlen
  · simp [h]
  · by_cases h1 : i - xlen < 1
    · obtain rfl : i = xlen := by omega
      simp
    · simp [h, h1, show i - xlen - 1 < 2 by omega, show xlen + 1 + (i - xlen - 1) = i by omega]

/-- A word laid out again at its own width is itself. -/
@[simp] theorem hostWordAt_self {xlen : Nat} (cw : BitVec (xlen + 3)) : Machine.hostWordAt xlen cw = cw := by
  simp [Machine.hostWordAt]

end Sys2Proof
end

