-- ==== Sys2Proof/Laws/Operands.lean ====
section
/-! SUPPORT. The encoder's parts in mathematical terms. -/

namespace Sys2Proof.Machine

open Sys2Proof

/-- The operand of a decoded word is its `arg` field (R71, R80). -/
@[simp] theorem operand_toInt (p : Params) (x : BitVec p.xlen) : operand p x.toInt = x := BitVec.ofInt_toInt

/-- An operand in range is its own value in `XLEN` bits (R12). -/
theorem toInt_operand {p : Params} {v : Int} (hw : 0 < p.xlen) (h : fitsSigned p.xlen v = true) :
    (operand p v).toInt = v := by
  have hv := of_decide_eq_true h
  exact BitVec.toInt_ofInt_eq_self hw (by exact_mod_cast hv.1) (by exact_mod_cast hv.2)

/-- A word of the port's own width is read as it stands (R70). -/
@[simp] theorem portWord_toNat (p : Params) (cw : BitVec (p.xlen + 3)) : portWord p cw.toNat = cw := by
  simp [portWord]

/-- The magnitude is the mathematical absolute value, also of the most negative value (R144). -/
theorem magnitude_toNat {w : Nat} (v : BitVec w) : (magnitude v).toNat = v.toInt.natAbs := by
  unfold magnitude
  have hlt := v.isLt
  cases hm : v.msb with
  | false =>
    have h := BitVec.toInt_eq_toNat_of_msb hm
    simp [h]
  | true =>
    have h := BitVec.msb_eq_toNat (x := v)
    rw [hm] at h
    have h2 : 2 ^ (w - 1) ≤ v.toNat := by simpa using h.symm
    have h0 : 0 < v.toNat := lt_of_lt_of_le (by positivity) h2
    have hi : v.toInt = (v.toNat : Int) - 2 ^ w := by
      rw [BitVec.toInt_eq_msb_cond, if_pos hm]
      norm_cast
    rw [if_pos rfl, BitVec.toNat_sub, show BitVec.toNat (0 : BitVec w) = 0 by simp, Nat.add_zero, Nat.mod_eq_of_lt (by omega), hi]
    have : ((2 ^ w : Nat) : Int) = 2 ^ w := by norm_cast
    omega

/-- A digit lookup sees its argument modulo ten (R145). -/
theorem segDigit_congr (seg : SegTable) {m n : Nat} (h : m % 10 = n % 10) : segDigit seg m = segDigit seg n := by
  simp [segDigit, h]

@[simp] theorem withColon_false (pat : Byte) : withColon false pat = pat := rfl

@[simp] theorem withColon_true (pat : Byte) : withColon true pat = pat ||| 0x80#8 := rfl

end Sys2Proof.Machine
end

