-- ==== Sys2Proof/Laws/State.lean ====
section
/-! SUPPORT. One lemma for each field after each update of the state. -/

namespace Sys2Proof.Machine

open Sys2Proof

/-! ### The fields after a micro-operation that writes a line (`State.drive`) -/

@[simp] theorem State.drive_lines (s : State) (u : Uop) : (s.drive u).lines = s.lines.perform u := rfl
@[simp] theorem State.drive_buf (s : State) (u : Uop) : (s.drive u).buf = s.buf := rfl
@[simp] theorem State.drive_cmdb (s : State) (u : Uop) : (s.drive u).cmdb = s.cmdb := rfl
@[simp] theorem State.drive_op (s : State) (u : Uop) : (s.drive u).op = s.op := rfl
@[simp] theorem State.drive_upc (s : State) (u : Uop) : (s.drive u).upc = s.upc := rfl
@[simp] theorem State.drive_busy (s : State) (u : Uop) : (s.drive u).busy = s.busy := rfl
@[simp] theorem State.drive_inited (s : State) (u : Uop) : (s.drive u).inited = s.inited := rfl
@[simp] theorem State.drive_ackLast (s : State) (u : Uop) : (s.drive u).ackLast = s.ackLast := rfl
@[simp] theorem State.drive_trace (s : State) (u : Uop) : (s.drive u).trace = s.trace ++ [u.event false] := rfl
@[simp] theorem State.drive_params (s : State) (u : Uop) : (s.drive u).params = s.params := rfl
@[simp] theorem State.drive_cmdIn (s : State) (u : Uop) : (s.drive u).cmdIn = s.cmdIn := rfl
@[simp] theorem State.drive_rstIn (s : State) (u : Uop) : (s.drive u).rstIn = s.rstIn := rfl
@[simp] theorem State.drive_dioIn (s : State) (u : Uop) : (s.drive u).dioIn = s.dioIn := rfl
@[simp] theorem State.drive_freeIdx (s : State) (u : Uop) : (s.drive u).freeIdx = s.freeIdx := rfl

/-! ### The fields after a drawn level (`State.drawLevel`) -/

@[simp] theorem State.drawLevel_lines (s : State) : (s.drawLevel).lines = s.lines := rfl
@[simp] theorem State.drawLevel_buf (s : State) : (s.drawLevel).buf = s.buf := rfl
@[simp] theorem State.drawLevel_cmdb (s : State) : (s.drawLevel).cmdb = s.cmdb := rfl
@[simp] theorem State.drawLevel_op (s : State) : (s.drawLevel).op = s.op := rfl
@[simp] theorem State.drawLevel_upc (s : State) : (s.drawLevel).upc = s.upc := rfl
@[simp] theorem State.drawLevel_busy (s : State) : (s.drawLevel).busy = s.busy := rfl
@[simp] theorem State.drawLevel_inited (s : State) : (s.drawLevel).inited = s.inited := rfl
@[simp] theorem State.drawLevel_ackLast (s : State) : (s.drawLevel).ackLast = s.ackLast := rfl
@[simp] theorem State.drawLevel_trace (s : State) : (s.drawLevel).trace = s.trace := rfl
@[simp] theorem State.drawLevel_params (s : State) : (s.drawLevel).params = s.params := rfl
@[simp] theorem State.drawLevel_cmdIn (s : State) : (s.drawLevel).cmdIn = s.cmdIn := rfl
@[simp] theorem State.drawLevel_rstIn (s : State) : (s.drawLevel).rstIn = s.rstIn := rfl
@[simp] theorem State.drawLevel_dioIn (s : State) : (s.drawLevel).dioIn = s.dioIn.tail := rfl
@[simp] theorem State.drawLevel_freeIdx (s : State) : (s.drawLevel).freeIdx =
    if s.dioIn.isEmpty then s.freeIdx + 1 else s.freeIdx := rfl

/-! ### The fields after the sample (`State.sample`) -/

@[simp] theorem State.sample_lines (s : State) : (s.sample).lines = s.lines := rfl
@[simp] theorem State.sample_buf (s : State) : (s.sample).buf = s.buf := rfl
@[simp] theorem State.sample_cmdb (s : State) : (s.sample).cmdb = s.cmdb := rfl
@[simp] theorem State.sample_op (s : State) : (s.sample).op = s.op := rfl
@[simp] theorem State.sample_upc (s : State) : (s.sample).upc = s.upc := rfl
@[simp] theorem State.sample_busy (s : State) : (s.sample).busy = s.busy := rfl
@[simp] theorem State.sample_inited (s : State) : (s.sample).inited = s.inited := rfl
@[simp] theorem State.sample_ackLast (s : State) : (s.sample).ackLast = s.lines.wireDio s.nextLevel := rfl
@[simp] theorem State.sample_trace (s : State) : (s.sample).trace =
    s.trace ++ [.dioSample (s.lines.wireDio s.nextLevel)] := rfl
@[simp] theorem State.sample_params (s : State) : (s.sample).params = s.params := rfl
@[simp] theorem State.sample_cmdIn (s : State) : (s.sample).cmdIn = s.cmdIn := rfl
@[simp] theorem State.sample_rstIn (s : State) : (s.sample).rstIn = s.rstIn := rfl
@[simp] theorem State.sample_dioIn (s : State) : (s.sample).dioIn = s.dioIn.tail := rfl
@[simp] theorem State.sample_freeIdx (s : State) : (s.sample).freeIdx =
    if s.dioIn.isEmpty then s.freeIdx + 1 else s.freeIdx := rfl

/-! ### The fields after acceptance (`State.accept`) -/

@[simp] theorem State.accept_lines (s : State) (op : BitVec 2) : (s.accept op).lines = s.lines := rfl
@[simp] theorem State.accept_buf (s : State) (op : BitVec 2) : (s.accept op).buf = s.buf := rfl
@[simp] theorem State.accept_cmdb (s : State) (op : BitVec 2) : (s.accept op).cmdb = s.cmdb := rfl
@[simp] theorem State.accept_op (s : State) (op : BitVec 2) : (s.accept op).op = op := rfl
@[simp] theorem State.accept_upc (s : State) (op : BitVec 2) : (s.accept op).upc = 0 := rfl
@[simp] theorem State.accept_busy (s : State) (op : BitVec 2) : (s.accept op).busy = true := rfl
@[simp] theorem State.accept_inited (s : State) (op : BitVec 2) : (s.accept op).inited = s.inited := rfl
@[simp] theorem State.accept_ackLast (s : State) (op : BitVec 2) : (s.accept op).ackLast = s.ackLast := rfl
@[simp] theorem State.accept_trace (s : State) (op : BitVec 2) : (s.accept op).trace = s.trace := rfl
@[simp] theorem State.accept_params (s : State) (op : BitVec 2) : (s.accept op).params = s.params := rfl
@[simp] theorem State.accept_cmdIn (s : State) (op : BitVec 2) : (s.accept op).cmdIn = s.cmdIn := rfl
@[simp] theorem State.accept_rstIn (s : State) (op : BitVec 2) : (s.accept op).rstIn = s.rstIn := rfl
@[simp] theorem State.accept_dioIn (s : State) (op : BitVec 2) : (s.accept op).dioIn = s.dioIn := rfl
@[simp] theorem State.accept_freeIdx (s : State) (op : BitVec 2) : (s.accept op).freeIdx = s.freeIdx := rfl

/-! ### The fields after reset (`State.takeReset`); `BUF` becomes free values -/

@[simp] theorem State.takeReset_lines (s : State) : (s.takeReset).lines = Lines.idle := rfl
@[simp] theorem State.takeReset_cmdb (s : State) : (s.takeReset).cmdb = Config.freeCmdb s.freeIdx := rfl
@[simp] theorem State.takeReset_op (s : State) : (s.takeReset).op = Config.freeOp s.freeIdx := rfl
@[simp] theorem State.takeReset_upc (s : State) : (s.takeReset).upc = 0 := rfl
@[simp] theorem State.takeReset_busy (s : State) : (s.takeReset).busy = false := rfl
@[simp] theorem State.takeReset_inited (s : State) : (s.takeReset).inited = false := rfl
@[simp] theorem State.takeReset_ackLast (s : State) : (s.takeReset).ackLast = true := rfl
@[simp] theorem State.takeReset_trace (s : State) : (s.takeReset).trace = [] := rfl
@[simp] theorem State.takeReset_params (s : State) : (s.takeReset).params = s.params := rfl
@[simp] theorem State.takeReset_cmdIn (s : State) : (s.takeReset).cmdIn = s.cmdIn := rfl
@[simp] theorem State.takeReset_rstIn (s : State) : (s.takeReset).rstIn = s.rstIn := rfl
@[simp] theorem State.takeReset_dioIn (s : State) : (s.takeReset).dioIn = s.dioIn := rfl
@[simp] theorem State.takeReset_freeIdx (s : State) : (s.takeReset).freeIdx = s.freeIdx + 1 := rfl

/-! ### The fields after the sampling of `rst` (`State.tick`) -/

@[simp] theorem State.tick_lines (s : State) : (s.tick).lines = s.lines := rfl
@[simp] theorem State.tick_buf (s : State) : (s.tick).buf = s.buf := rfl
@[simp] theorem State.tick_cmdb (s : State) : (s.tick).cmdb = s.cmdb := rfl
@[simp] theorem State.tick_op (s : State) : (s.tick).op = s.op := rfl
@[simp] theorem State.tick_upc (s : State) : (s.tick).upc = s.upc := rfl
@[simp] theorem State.tick_busy (s : State) : (s.tick).busy = s.busy := rfl
@[simp] theorem State.tick_inited (s : State) : (s.tick).inited = s.inited := rfl
@[simp] theorem State.tick_ackLast (s : State) : (s.tick).ackLast = s.ackLast := rfl
@[simp] theorem State.tick_trace (s : State) : (s.tick).trace = s.trace := rfl
@[simp] theorem State.tick_params (s : State) : (s.tick).params = s.params := rfl
@[simp] theorem State.tick_cmdIn (s : State) : (s.tick).cmdIn = s.cmdIn := rfl
@[simp] theorem State.tick_rstIn (s : State) : (s.tick).rstIn = s.rstIn.tail := rfl
@[simp] theorem State.tick_dioIn (s : State) : (s.tick).dioIn = s.dioIn := rfl
@[simp] theorem State.tick_freeIdx (s : State) : (s.tick).freeIdx = s.freeIdx := rfl

/-! ### The fields after a placed sequencer (`State.atPlace`) -/

@[simp] theorem State.atPlace_lines (s : State) (op : BitVec 2) (upc : BitVec 8) : (s.atPlace op upc).lines =
    s.lines := rfl
@[simp] theorem State.atPlace_buf (s : State) (op : BitVec 2) (upc : BitVec 8) : (s.atPlace op upc).buf = s.buf := rfl
@[simp] theorem State.atPlace_cmdb (s : State) (op : BitVec 2) (upc : BitVec 8) : (s.atPlace op upc).cmdb =
    s.cmdb := rfl
@[simp] theorem State.atPlace_op (s : State) (op : BitVec 2) (upc : BitVec 8) : (s.atPlace op upc).op = op := rfl
@[simp] theorem State.atPlace_upc (s : State) (op : BitVec 2) (upc : BitVec 8) : (s.atPlace op upc).upc = upc := rfl
@[simp] theorem State.atPlace_busy (s : State) (op : BitVec 2) (upc : BitVec 8) : (s.atPlace op upc).busy = true := rfl
@[simp] theorem State.atPlace_inited (s : State) (op : BitVec 2) (upc : BitVec 8) : (s.atPlace op upc).inited =
    s.inited := rfl
@[simp] theorem State.atPlace_ackLast (s : State) (op : BitVec 2) (upc : BitVec 8) : (s.atPlace op upc).ackLast =
    s.ackLast := rfl
@[simp] theorem State.atPlace_trace (s : State) (op : BitVec 2) (upc : BitVec 8) : (s.atPlace op upc).trace =
    s.trace := rfl
@[simp] theorem State.atPlace_params (s : State) (op : BitVec 2) (upc : BitVec 8) : (s.atPlace op upc).params =
    s.params := rfl
@[simp] theorem State.atPlace_cmdIn (s : State) (op : BitVec 2) (upc : BitVec 8) : (s.atPlace op upc).cmdIn =
    s.cmdIn := rfl
@[simp] theorem State.atPlace_rstIn (s : State) (op : BitVec 2) (upc : BitVec 8) : (s.atPlace op upc).rstIn =
    s.rstIn := rfl
@[simp] theorem State.atPlace_dioIn (s : State) (op : BitVec 2) (upc : BitVec 8) : (s.atPlace op upc).dioIn =
    s.dioIn := rfl
@[simp] theorem State.atPlace_freeIdx (s : State) (op : BitVec 2) (upc : BitVec 8) : (s.atPlace op upc).freeIdx =
    s.freeIdx := rfl

/-! ### The fields after the advance (`State.advance`) -/

/-- At the end of the list the block is idle again, and initialised if the list was that of `INIT` (R175). -/
theorem State.advance_last {s : State} (h : s.upc.toNat + 1 = progLen s.op) :
    s.advance = { s with upc := 0, busy := false, inited := s.inited || s.op == 0 } := if_pos h

/-- Before the end only `UPC` moves (R27). -/
theorem State.advance_inner {s : State} (h : s.upc.toNat + 1 ≠ progLen s.op) :
    s.advance = { s with upc := s.upc + 1 } := if_neg h

@[simp] theorem State.advance_lines (s : State) : s.advance.lines = s.lines := by unfold State.advance; split <;> rfl
@[simp] theorem State.advance_buf (s : State) : s.advance.buf = s.buf := by unfold State.advance; split <;> rfl
@[simp] theorem State.advance_cmdb (s : State) : s.advance.cmdb = s.cmdb := by unfold State.advance; split <;> rfl
@[simp] theorem State.advance_op (s : State) : s.advance.op = s.op := by unfold State.advance; split <;> rfl
@[simp] theorem State.advance_ackLast (s : State) : s.advance.ackLast = s.ackLast := by unfold State.advance; split <;> rfl
@[simp] theorem State.advance_trace (s : State) : s.advance.trace = s.trace := by unfold State.advance; split <;> rfl
@[simp] theorem State.advance_params (s : State) : s.advance.params = s.params := by unfold State.advance; split <;> rfl
@[simp] theorem State.advance_cmdIn (s : State) : s.advance.cmdIn = s.cmdIn := by unfold State.advance; split <;> rfl
@[simp] theorem State.advance_rstIn (s : State) : s.advance.rstIn = s.rstIn := by unfold State.advance; split <;> rfl
@[simp] theorem State.advance_dioIn (s : State) : s.advance.dioIn = s.dioIn := by unfold State.advance; split <;> rfl
@[simp] theorem State.advance_freeIdx (s : State) : s.advance.freeIdx = s.freeIdx := by unfold State.advance; split <;> rfl

end Sys2Proof.Machine
end

