-- ==== Sys2Proof/Laws/Ops.lean ====
section
/-! SUPPORT. What each shared operation can do, said once: performing a micro-operation or a list, sequencing, the step,
the lines of a list, and the monitor on a longer trace. -/

namespace Sys2Proof.Machine

open Sys2Proof

/-! ## Sequencing -/

@[simp] theorem thenDo_next (s : State) (f : State → Result) : thenDo (.next s) f = f s := rfl

@[simp] theorem thenDo_refused (e : Refusal) (f : State → Result) : thenDo (.refused e) f = .refused e := rfl

/-- `thenDo` answers a next state only through one of its first part. -/
theorem thenDo_eq_next {r : Result} {f : State → Result} {t : State} :
    thenDo r f = .next t ↔ ∃ s, r = .next s ∧ f s = .next t := by
  cases r <;> simp [thenDo]

theorem thenDo_assoc (r : Result) (f g : State → Result) :
    thenDo (thenDo r f) g = thenDo r fun s => thenDo (f s) g := by
  cases r <;> rfl

/-! ## One micro-operation -/

/-- The block performs a micro-operation as the instruction of its table row. -/
theorem exec_toInstr (u : Uop) (s : State) : exec u.toInstr s = performUop u s := by
  cases u <;> rfl

/-- Every micro-operation but the sample writes its register and its trace entry, in every state (R100). -/
theorem performUop_drive {u : Uop} (h : u ≠ .dioSample) (s : State) : performUop u s = .next (s.drive u) := by
  cases u <;> first | rfl | exact absurd rfl h

/-- The sample with the line an input (R107). -/
theorem performUop_sample {s : State} (h : s.lines.dioDir = .inp) : performUop .dioSample s = .next s.sample := by
  simp [performUop, execDioSample, h]

/-- The sample with the line an output (U6). -/
theorem performUop_sample_out {s : State} (h : s.lines.dioDir = .out) :
    performUop .dioSample s = .refused .sampleWhileOutput := by
  simp [performUop, execDioSample, h]

/-- As an input the wire is the environment's alone (R35, R107). -/
@[simp] theorem Lines.wireDio_inp {l : Lines} (h : l.dioDir = .inp) (p : Bool) : l.wireDio p = p := by
  simp [Lines.wireDio, Lines.ownDio, h]

/-- All that performing one micro-operation can do when it answers a next state. -/
theorem performUop_cases {u : Uop} {s t : State} (h : performUop u s = .next t) :
    (u ≠ .dioSample ∧ t = s.drive u) ∨ (u = .dioSample ∧ s.lines.dioDir = .inp ∧ t = s.sample) := by
  by_cases hu : u = .dioSample
  · subst hu
    cases hd : s.lines.dioDir with
    | out => simp [performUop_sample_out hd] at h
    | inp =>
      rw [performUop_sample hd] at h
      exact .inr ⟨rfl, rfl, (Host.Outcome.next.inj h).symm⟩
  · rw [performUop_drive hu] at h
    exact .inl ⟨hu, (Host.Outcome.next.inj h).symm⟩

/-- The line registers after a micro-operation. -/
theorem performUop_lines {u : Uop} {s t : State} (h : performUop u s = .next t) : t.lines = s.lines.perform u := by
  obtain ⟨-, rfl⟩ | ⟨rfl, -, rfl⟩ := performUop_cases h <;> simp [Lines.perform]

@[simp] theorem Uop.event_uop (u : Uop) (b : Bool) : (u.event b).uop = u := by cases u <;> rfl

/-- The one trace entry of a micro-operation (R100). -/
theorem performUop_trace {u : Uop} {s t : State} (h : performUop u s = .next t) :
    ∃ e : PinEvent, e.uop = u ∧ t.trace = s.trace ++ [e] := by
  obtain ⟨-, rfl⟩ | ⟨rfl, -, rfl⟩ := performUop_cases h
  · exact ⟨u.event false, by simp, by simp⟩
  · exact ⟨.dioSample _, rfl, State.sample_trace s⟩

/-- What no micro-operation writes (R100). -/
theorem performUop_frame {u : Uop} {s t : State} (h : performUop u s = .next t) :
    t.buf = s.buf ∧ t.cmdb = s.cmdb ∧ t.op = s.op ∧ t.upc = s.upc ∧ t.busy = s.busy ∧ t.inited = s.inited ∧
      t.params = s.params ∧ t.cmdIn = s.cmdIn ∧ t.rstIn = s.rstIn := by
  obtain ⟨-, rfl⟩ | ⟨rfl, -, rfl⟩ := performUop_cases h <;> simp

/-! ## Lists of micro-operations -/

@[simp] theorem performAll_nil (s : State) : performAll [] s = .next s := rfl

@[simp] theorem performAll_cons (u : Uop) (us : List Uop) (s : State) :
    performAll (u :: us) s = thenDo (performUop u s) (performAll us) := rfl

/-- A list performed in two parts. -/
theorem performAll_append (us vs : List Uop) (s : State) :
    performAll (us ++ vs) s = thenDo (performAll us s) (performAll vs) := by
  induction us generalizing s with
  | nil => rfl
  | cons u us ih =>
    rw [List.cons_append, performAll_cons, performAll_cons, thenDo_assoc]
    congr 1
    exact funext ih

/-- The lines after a performed list. -/
theorem performAll_lines {us : List Uop} {s t : State} (h : performAll us s = .next t) :
    t.lines = us.foldl (fun l u => l.perform u) s.lines := by
  induction us generalizing s with
  | nil => simpa using congrArg State.lines (Host.Outcome.next.inj h).symm
  | cons u us ih =>
    obtain ⟨m, hm, ht⟩ := thenDo_eq_next.mp h
    rw [ih ht, performUop_lines hm, List.foldl_cons]

/-- The trace after a performed list (R63, R64). -/
theorem performAll_trace {us : List Uop} {s t : State} (h : performAll us s = .next t) :
    ∃ es : List PinEvent, es.map PinEvent.uop = us ∧ t.trace = s.trace ++ es := by
  induction us generalizing s with
  | nil =>
    refine ⟨[], rfl, ?_⟩
    simpa using congrArg State.trace (Host.Outcome.next.inj h).symm
  | cons u us ih =>
    obtain ⟨m, hm, ht⟩ := thenDo_eq_next.mp h
    obtain ⟨e, he, hme⟩ := performUop_trace hm
    obtain ⟨es, hes, hte⟩ := ih ht
    exact ⟨e :: es, by simp [he, hes], by simp [hte, hme]⟩

/-! ## The step -/

/-- A step with `rst = 1` (R195). -/
theorem step_of_reset {s : State} (h : s.rstNow = true) : step s = .next s.tick.takeReset := by
  simp [step, h]

/-- A step of a busy block, by the micro-operation at its position (R171). -/
theorem step_of_busy {s : State} {u : Uop} (hr : s.rstNow = false) (hb : s.busy = true)
    (hu : s.currentUop = some u) :
    step s = thenDo (performUop u s.tick) fun t => .next t.advance := by
  have hf : s.tick.fetch = u.toInstr := by
    simp only [State.currentUop] at hu
    simp [State.fetch, State.currentUop, hu]
  simp [step, hr, hb, microStep, hf, exec_toInstr]

/-- A step of a busy block at a position outside every list is refused (log entry 9). -/
theorem step_of_no_uop {s : State} (hr : s.rstNow = false) (hb : s.busy = true) (hu : s.currentUop = none) :
    step s = .refused .unusedMicroop := by
  have hf : s.tick.fetch = .reservedU7 := by
    simp only [State.currentUop] at hu
    simp [State.fetch, State.currentUop, hu]
  simp [step, hr, hb, microStep, hf, exec, execReservedU7]

/-- A step of an idle block is the idle step (R161). -/
theorem step_of_idle {s : State} (hr : s.rstNow = false) (hb : s.busy = false) : step s = idleStep s.tick := by
  simp [step, hr, hb]

/-- All that a step can do when it answers a next state: a reset, a micro-operation with its advance, an idle step. -/
theorem step_cases {s t : State} (h : step s = .next t) :
    (s.rstNow = true ∧ t = s.tick.takeReset) ∨
    (s.rstNow = false ∧ s.busy = true ∧ ∃ u m, s.currentUop = some u ∧ performUop u s.tick = .next m ∧ t = m.advance) ∨
    (s.rstNow = false ∧ s.busy = false ∧ idleStep s.tick = .next t) := by
  cases hr : s.rstNow with
  | true => exact .inl ⟨rfl, (Host.Outcome.next.inj ((step_of_reset hr).symm.trans h)).symm⟩
  | false =>
    cases hb : s.busy with
    | false => exact .inr (.inr ⟨rfl, rfl, (step_of_idle hr hb).symm.trans h⟩)
    | true =>
      cases hu : s.currentUop with
      | none => simp [step_of_no_uop hr hb hu] at h
      | some u =>
        rw [step_of_busy hr hb hu] at h
        obtain ⟨m, hm, hma⟩ := thenDo_eq_next.mp h
        exact .inr (.inl ⟨rfl, rfl, u, m, rfl, hm, (Host.Outcome.next.inj hma).symm⟩)

/-- All that an idle step can do when it answers a next state: nothing, or the acceptance of one of the three
operations (R161). -/
theorem idleStep_cases {s t : State} (hb : s.busy = false) (h : idleStep s = .next t) :
    (s.cmdIn = [] ∧ t = s) ∨
    ∃ n rest, s.cmdIn = n :: rest ∧
      ((decodeHost (portWord s.params n) = .init ∧
          t = { State.accept { s with cmdIn := rest } 0 with cmdb := ctrlOf (operand s.params s.params.initLevel) }) ∨
       (∃ level, decodeHost (portWord s.params n) = .bright level ∧ s.inited = true ∧
          t = { State.accept { s with cmdIn := rest } 1 with cmdb := ctrlOf (operand s.params level) }) ∨
       ∃ value colon, decodeHost (portWord s.params n) = .showDec value colon ∧ s.inited = true ∧
          t = { State.accept { s with cmdIn := rest } 2 with
            buf := segEncode s.params.seg (operand s.params value) colon }) := by
  cases hc : s.cmdIn with
  | nil =>
    simp only [idleStep, hc] at h
    exact .inl ⟨rfl, (Host.Outcome.next.inj h).symm⟩
  | cons n rest =>
    simp only [idleStep, hc] at h
    refine .inr ⟨n, rest, rfl, ?_⟩
    generalize portWord s.params n = cw at h ⊢
    have key : decodeHost cw = .init ∨ (∃ l, decodeHost cw = .bright l) ∨
        (∃ v c, decodeHost cw = .showDec v c) ∨ decodeHost cw = .reservedH3 := by
      unfold decodeHost
      split <;> simp
    obtain hd | ⟨l, hd⟩ | ⟨v, c, hd⟩ | hd := key <;> rw [hd] at h
    · refine .inl ⟨hd, ?_⟩
      simpa [exec, execInit, hb] using h.symm
    · refine .inr (.inl ⟨l, hd, ?_⟩)
      cases hi : s.inited <;> simp [exec, execBright, hb, hi] at h
      exact ⟨rfl, h.symm⟩
    · refine .inr (.inr ⟨v, c, hd, ?_⟩)
      cases hi : s.inited <;> simp [exec, execShow, hb, hi] at h
      exact ⟨rfl, h.symm⟩
    · simp [exec, execReservedH3] at h

@[simp] theorem steps_zero (s : State) : steps 0 s = .next s := rfl

theorem steps_succ (n : Nat) (s : State) : steps (n + 1) s = thenDo (step s) (steps n) := rfl

/-- A run in two parts. -/
theorem steps_add (m n : Nat) (s : State) : steps (m + n) s = thenDo (steps m s) (steps n) := by
  induction m generalizing s with
  | zero => simp
  | succ m ih =>
    rw [Nat.succ_add, steps_succ, steps_succ, thenDo_assoc]
    congr 1
    exact funext ih

/-! ## Placed codes (log entry 10) -/

@[simp] theorem State.rstLow_rstNow (s : State) : s.rstLow.rstNow = false := by
  cases h : s.rstIn <;> simp [State.rstLow, State.rstNow, h]

/-- A placed micro-operation code is the one that the next step fetches. -/
theorem placeCode_uop_fetch (s : State) (code : BitVec 3) : (s.placeCode (.uop code)).fetch = decodeUop code := by
  have h : code = 0 ∨ code = 1 ∨ code = 2 ∨ code = 3 ∨ code = 4 ∨ code = 5 ∨ code = 6 ∨ code = 7 := by
    revert code; decide
  obtain rfl | rfl | rfl | rfl | rfl | rfl | rfl | rfl := h <;> rfl

/-- A placed host word is the one that the next step runs, laid out at the state's own width. -/
theorem step_placeCode_host (s : State) {w : Nat} (cw : BitVec (w + 3)) :
    step (s.placeCode (.host w cw)) =
      exec (decodeHost (hostWordAt s.params.xlen cw)) { s with busy := false, rstIn := s.rstLow.rstIn.tail } := by
  rw [step_of_idle (s := s.placeCode (.host w cw)) (State.rstLow_rstNow s) rfl,
    ← portWord_toNat s.params (hostWordAt s.params.xlen cw)]
  rfl

/-! ## The lines of a list, and the monitor -/

@[simp] theorem linesAfter_zero (us : List Uop) : linesAfter us 0 = Lines.idle := rfl

/-- One micro-operation further along a list. -/
theorem linesAfter_succ {us : List Uop} {n : Nat} {u : Uop} (h : us[n]? = some u) :
    linesAfter us (n + 1) = (linesAfter us n).perform u := by
  simp [linesAfter, List.take_add_one, h, List.foldl_append]

/-- The monitor on one more entry. -/
theorem scan_append_one (trace : List PinEvent) (e : PinEvent) : scan (trace ++ [e]) = (scan trace).next e := by
  simp [scan, List.foldl_append]

/-- The wire events of a list in two parts. -/
theorem wireEvents_append (l : Lines) (us vs : List Uop) :
    wireEvents l (us ++ vs) = wireEvents l us ++ wireEvents (us.foldl (fun l u => l.perform u) l) vs := by
  induction us generalizing l with
  | nil => rfl
  | cons u us ih => simp [wireEvents, ih]

end Sys2Proof.Machine
end

