-- ==== Sys2Proof/Laws/PerInstr.lean ====
section
/-! SUPPORT. For every instruction: its encoding lies in the row of spec/opcode_table.json that bears its mnemonic.  The
widths, masks and matches below are the table's numbers, not computed from the encoder. -/

namespace Sys2Proof.Laws.RowOfTheTable

open Sys2Proof

/-- The width, mask and match of an instruction's row in spec/opcode_table.json. -/
def row : Instr → Nat × Nat × Nat
  | .init => (35, 0x600000000, 0x000000000)
  | .bright _ => (35, 0x600000000, 0x200000000)
  | .showDec _ _ => (35, 0x600000000, 0x400000000)
  | .reservedH3 => (35, 0x600000000, 0x600000000)
  | .ctrl _ _ => (8, 0xF0, 0x80)
  | .data => (8, 0xFF, 0x40)
  | .addr => (8, 0xFF, 0xC0)
  | .pattern _ _ => (8, 0x00, 0x00)
  | .busInit => (3, 0x7, 0x0)
  | .start => (3, 0x7, 0x1)
  | .stop => (3, 0x7, 0x2)
  | .sendByte _ => (3, 0x7, 0x3)
  | .readAck => (3, 0x7, 0x4)
  | .cmdFrame _ => (3, 0x7, 0x5)
  | .clkLo => (3, 0x7, 0x0)
  | .clkHi => (3, 0x7, 0x1)
  | .dioLo => (3, 0x7, 0x2)
  | .dioHi => (3, 0x7, 0x3)
  | .dioDirOut => (3, 0x7, 0x4)
  | .dioDirIn => (3, 0x7, 0x5)
  | .dioSample => (3, 0x7, 0x6)
  | .reservedU7 => (3, 0x7, 0x7)

/-- The bits of a code that the table gives a row: the operand of a primitive is not among them (R90). -/
def tableBits : Code → Nat × Nat
  | .host xlen cw => (xlen + 3, cw.toNat)
  | .frameByte b => (8, b.toNat)
  | .addrByte b => (8, b.toNat)
  | .dataByte b => (8, b.toNat)
  | .prim code _ => (3, code.toNat)
  | .uop code => (3, code.toNat)

/-- The encoding, at the width the table lays its host rows out at, has the row's width, and its masked bits are the row's
match. -/
def Statement (i : Instr) : Prop :=
  (tableBits (encode Config.defaultXlen i)).1 = (row i).1 ∧
    (tableBits (encode Config.defaultXlen i)).2 &&& (row i).2.1 = (row i).2.2

/-- A host word's masked bits are its opcode. -/
theorem hostWord_masked (op : BitVec 2) (colon : Bool) (arg : BitVec 32) :
    (hostWord op colon arg).toNat &&& 0x600000000 = op.toNat <<< 33 := by
  have h : hostWord op colon arg &&& 0x600000000#35 = op.setWidth 35 <<< 33 := by
    apply BitVec.eq_of_getLsbD_eq
    intro i hi
    have hm : (0x600000000#35).getLsbD i = decide (33 ≤ i) := by
      revert i; decide
    simp only [hostWord, BitVec.getLsbD_and, BitVec.getLsbD_cast, hm, BitVec.getLsbD_append, BitVec.getLsbD_shiftLeft,
      BitVec.getLsbD_setWidth]
    by_cases h33 : 33 ≤ i
    · have h1 : ¬ i < 32 := by omega
      have h2 : ¬ i - 32 < 1 := by omega
      have h3 : i - 32 - 1 = i - 33 := by omega
      have h4 : ¬ i < 33 := by omega
      have h5 : i - 33 < 35 := by omega
      simp [h1, h2, h3, h4, h5, hi, h33]
    · simp [h33, show i < 33 by omega]
  have := congrArg BitVec.toNat h
  rw [BitVec.toNat_and] at this
  rw [show (0x600000000 : Nat) = (0x600000000#35).toNat from rfl, this]
  clear h this
  revert op; decide

/-- A control byte's masked bits are its fixed upper half. -/
theorem ctrlByte_masked (on : Bool) (lvl : BitVec 3) : (ctrlByte on lvl).toNat &&& 0xF0 = 0x80 := by
  revert on lvl; decide

theorem init : Statement .init := ⟨rfl, rfl⟩

theorem bright (level : Int) : Statement (.bright level) := ⟨rfl, hostWord_masked _ _ _⟩

theorem showDec (value : Int) (colon : Bool) : Statement (.showDec value colon) := ⟨rfl, hostWord_masked _ _ _⟩

theorem reservedH3 : Statement .reservedH3 := ⟨rfl, rfl⟩

theorem ctrl (on : Bool) (lvl : BitVec 3) : Statement (.ctrl on lvl) := ⟨rfl, ctrlByte_masked on lvl⟩

theorem data : Statement .data := ⟨rfl, rfl⟩

theorem addr : Statement .addr := ⟨rfl, rfl⟩

theorem pattern (colonDp : Bool) (segments : BitVec 7) : Statement (.pattern colonDp segments) := ⟨rfl, Nat.and_zero _⟩

theorem busInit : Statement .busInit := ⟨rfl, rfl⟩

theorem start : Statement .start := ⟨rfl, rfl⟩

theorem stop : Statement .stop := ⟨rfl, rfl⟩

theorem sendByte (b : Byte) : Statement (.sendByte b) :=
  ⟨rfl, show (3#3).toNat &&& 7 = 3 by decide⟩

theorem readAck : Statement .readAck := ⟨rfl, rfl⟩

theorem cmdFrame (b : Byte) : Statement (.cmdFrame b) :=
  ⟨rfl, show (5#3).toNat &&& 7 = 5 by decide⟩

theorem clkLo : Statement .clkLo := ⟨rfl, rfl⟩

theorem clkHi : Statement .clkHi := ⟨rfl, rfl⟩

theorem dioLo : Statement .dioLo := ⟨rfl, rfl⟩

theorem dioHi : Statement .dioHi := ⟨rfl, rfl⟩

theorem dioDirOut : Statement .dioDirOut := ⟨rfl, rfl⟩

theorem dioDirIn : Statement .dioDirIn := ⟨rfl, rfl⟩

theorem dioSample : Statement .dioSample := ⟨rfl, rfl⟩

theorem reservedU7 : Statement .reservedU7 := ⟨rfl, rfl⟩

end Sys2Proof.Laws.RowOfTheTable
end

