-- ==== Sys2Proof/Tests/Slice0.lean ====
section
/-! SUPPORT. The model's own tests.  Expected results are the spec's: the encodings of spec/30_encoding.md and the vectors
V<n> of spec/95_test_vectors.md.  The second part holds a witness for the hypotheses of each statement. -/

namespace Sys2Proof.Tests

open Sys2Proof Sys2Proof.Machine

/-- The answer is a next state with property `p`. -/
def nextHas (r : Result) (p : State → Bool) : Bool :=
  match r with
  | .next s => p s
  | .fault _ => false
  | .refused _ => false

/-- The answer is the refusal `e`. -/
def refusedAs (r : Result) (e : Refusal) : Bool :=
  match r with
  | .next _ => false
  | .fault _ => false
  | .refused e' => e' == e

/-- The reset state with lines of one's own. -/
def linesAt (clk dio : Bool) (dir : Dir) : State :=
  { State.reset with lines := { clkOut := clk, dioOut := dio, dioDir := dir } }

/-- An initialised idle block with words and levels in store. -/
def idleWith (words : List Nat) (levels : List Bool) : State :=
  { State.reset with inited := true, cmdIn := words, dioIn := levels }

/-- The same block built with another `XLEN`. -/
def atXlen (xlen : Nat) (s : State) : State := { s with params := { s.params with xlen := xlen } }

/-- The registers of a block in mid-operation. -/
def busyRegs (op : BitVec 2) (upc : BitVec 8) : State :=
  { State.reset with
    busy := true, op := op, upc := upc, cmdb := 0x8D, buf := #v[0x06, 0x5B, 0x4F, 0x66], inited := true
    dioIn := [false] }

/-- A block in mid-operation, its lines and trace as its list leaves them. -/
def busyAt (op : BitVec 2) (upc : BitVec 8) : State :=
  let s := busyRegs op upc
  { s with lines := linesAfter s.prog upc.toNat, trace := (s.prog.take upc.toNat).map (Uop.event · false) }

/-! ## Well-formedness and decoding -/

theorem test_wellFormed_refuses_reserved_opcode : Instr.reservedH3.wellFormed 32 = false := by decide

theorem test_wellFormed_refuses_unused_microop : Instr.reservedU7.wellFormed 32 = false := by decide

/-- 0x83: display off with a level field (R85). -/
theorem test_wellFormed_refuses_off_with_level : (Instr.ctrl false 3).wellFormed 32 = false := by decide

/-- One past each end of the operand range, at two widths (R12). -/
theorem test_wellFormed_refuses_operands_out_of_range :
    (Instr.bright 2147483648).wellFormed 32 = false ∧ (Instr.bright (-2147483649)).wellFormed 32 = false ∧
    (Instr.showDec 32768 true).wellFormed 16 = false ∧ (Instr.showDec (-32769) false).wellFormed 16 = false := by decide

theorem test_wellFormed_accepts_the_nine_control_bytes :
    (Instr.ctrl false 0).wellFormed 32 = true ∧ ∀ lvl, (Instr.ctrl true lvl).wellFormed 32 = true := by decide

/-- R87's examples, and the reserved opcode (R84). -/
theorem test_decode_host_words :
    decode (.host 32 0x000000000#35) = .ok .init ∧ decode (.host 32 0x200000005#35) = .ok (.bright 5) ∧
    decode (.host 32 0x2FFFFFFFF#35) = .ok (.bright (-1)) ∧ decode (.host 32 0x4000004D2#35) = .ok (.showDec 1234 false) ∧
    decode (.host 32 0x500000008#35) = .ok (.showDec 8 true) ∧ decode (.host 32 0x5FFFFFFF8#35) = .ok (.showDec (-8) true) ∧
    decode (.host 32 0x600000000#35) = .ok .reservedH3 := by decide

/-- R71 at another width: `op` in bits 18 and 17, `colon` in bit 16, `arg` below. -/
theorem test_decode_host_words_of_another_width :
    decode (.host 16 0x2FFFF#19) = .ok (.bright (-1)) ∧ decode (.host 16 0x504D2#19) = .ok (.showDec 1234 true) ∧
    decode (.host 64 0x40000000000000000#67) = .ok (.showDec 0 false) ∧
    encode 16 (.showDec (-8) true) = .host 16 0x5FFF8#19 := by decide

/-- V65, V69: junk in ignored fields. -/
theorem test_decode_ignored_fields :
    decode (.host 32 0x300000005#35) = .ok (.bright 5) ∧ decode (.host 32 0x1DEADBEEF#35) = .ok .init := by decide

/-- R76 to R79: 0x8D is on at level 5, 0x80 is off. -/
theorem test_decode_wire_bytes :
    decode (.frameByte 0b10001101#8) = .ok (.ctrl true 5) ∧ decode (.frameByte 0b10000000#8) = .ok (.ctrl false 0) ∧
    decode (.frameByte 0b01000000#8) = .ok .data ∧ decode (.addrByte 0b11000000#8) = .ok .addr ∧
    decode (.dataByte 0b10111111#8) = .ok (.pattern true 0x3F) := by decide

/-- The codes of R90. -/
theorem test_decode_primitives :
    decode (.prim 0b000#3 none) = .ok .busInit ∧ decode (.prim 0b001#3 none) = .ok .start ∧
    decode (.prim 0b010#3 none) = .ok .stop ∧ decode (.prim 0b011#3 (some 0xBF)) = .ok (.sendByte 0xBF) ∧
    decode (.prim 0b100#3 none) = .ok .readAck ∧ decode (.prim 0b101#3 (some 0x8D)) = .ok (.cmdFrame 0x8D) := by decide

/-- The codes of R89. -/
theorem test_decode_microops :
    decode (.uop 0b000#3) = .ok .clkLo ∧ decode (.uop 0b001#3) = .ok .clkHi ∧ decode (.uop 0b010#3) = .ok .dioLo ∧
    decode (.uop 0b011#3) = .ok .dioHi ∧ decode (.uop 0b100#3) = .ok .dioDirOut ∧
    decode (.uop 0b101#3) = .ok .dioDirIn ∧ decode (.uop 0b110#3) = .ok .dioSample ∧
    decode (.uop 0b111#3) = .ok .reservedU7 := by decide

/-- R85, R90, R120: what names no instruction is rejected by name. -/
theorem test_decode_rejects :
    decode (.frameByte 0x41#8) = .error .notACommandByte ∧ decode (.addrByte 0xC1#8) = .error .notTheAddressByte ∧
    decode (.prim 6 none) = .error .unusedPrimitive ∧ decode (.prim 7 (some 0)) = .error .unusedPrimitive ∧
    decode (.prim 3 none) = .error .missingOperand ∧ decode (.prim 1 (some 0)) = .error .strayOperand := by decide

theorem test_encode_host_words :
    encode 32 .init = .host 32 0x000000000#35 ∧ encode 32 Instr.off = .host 32 0x2FFFFFFFF#35 ∧
    encode 32 (Instr.on 5) = .host 32 0x200000005#35 ∧
    encode 32 (.showDec (-2147483648) true) = .host 32 0x580000000#35 := by decide

/-- Table words: host words by length, bytes below 8 as micro-operations, other bytes as wire bytes (log entry 6). -/
theorem test_decodeTableWord :
    decodeTableWord 40 0x500000008 = some (.showDec 8 true) ∧ decodeTableWord 8 0x40 = some .data ∧
    decodeTableWord 8 0xC0 = some .addr ∧ decodeTableWord 8 0x8B = some (.ctrl true 3) ∧
    decodeTableWord 8 0x6 = some .dioSample ∧ decodeTableWord 8 0x3F = some (.pattern false 0x3F) ∧
    decodeTableWord 8 0x100 = none := by decide

/-- A placed word is the one the next step fetches. -/
theorem test_withFetchWord :
    (State.reset.withFetchWord 8 5).fetch = .dioDirIn ∧ (State.reset.withFetchWord 8 7).fetch = .reservedU7 ∧
    nextHas (step (State.reset.withFetchWord 8 6)) (fun s => s.trace.length == 1) = true ∧
    nextHas (step (State.reset.withFetchWord 40 0)) (fun s => s.busy && s.cmdb == 0x8F) = true := by decide

/-- On a block of another width the placed word keeps its operation and operand (log entry 10). -/
theorem test_withFetchWord_of_another_width :
    nextHas (step ((atXlen 16 (idleWith [] [])).withFetchWord 40 0x2FFFFFFFF)) (fun s => s.op == 1 && s.cmdb == 0x80) =
      true := by decide

/-! ## Pin micro-operations (V1 to V10) -/

theorem test_clkHi : nextHas (exec .clkHi (linesAt false true .out))
    (fun s => s.lines == { clkOut := true, dioOut := true, dioDir := .out } && s.trace == [.clkHi]) = true := by decide

/-- V2: a redundant write is still recorded (R64). -/
theorem test_clkHi_redundant : nextHas (exec .clkHi (linesAt true true .out))
    (fun s => s.lines == Lines.idle && s.trace == [.clkHi]) = true := by decide

theorem test_clkLo : nextHas (exec .clkLo (linesAt true false .out))
    (fun s => s.lines == { clkOut := false, dioOut := false, dioDir := .out } && !s.lines.ownDio) = true := by decide

theorem test_dioLo_is_a_start_event : nextHas (exec .dioLo (linesAt true true .out))
    (fun s => s.lines == { clkOut := true, dioOut := false, dioDir := .out } &&
      wireEvent Lines.idle s.lines == some .start) = true := by decide

theorem test_dioHi_is_a_stop_event : nextHas (exec .dioHi (linesAt true false .out))
    (fun s => s.lines == Lines.idle &&
      wireEvent { clkOut := true, dioOut := false, dioDir := .out } s.lines == some .stop) = true := by decide

theorem test_dioHi_while_input : nextHas (exec .dioHi (linesAt false false .inp))
    (fun s => s.lines == { clkOut := false, dioOut := true, dioDir := .inp } && s.lines.ownDio) = true := by decide

theorem test_dioDirIn_releases : nextHas (exec .dioDirIn (linesAt false false .out))
    (fun s => s.lines == { clkOut := false, dioOut := false, dioDir := .inp } && s.lines.ownDio) = true := by decide

theorem test_dioDirOut : nextHas (exec .dioDirOut (linesAt false true .inp))
    (fun s => s.lines == { clkOut := false, dioOut := true, dioDir := .out } && s.lines.ownDio) = true := by decide

theorem test_dioSample_acknowledged : nextHas (exec .dioSample { linesAt true true .inp with dioIn := [false, true] })
    (fun s => !s.ackLast && s.trace == [.dioSample false] && s.dioIn == [true]) = true := by decide

/-- U6. -/
theorem test_dioSample_refused_while_output :
    refusedAs (exec .dioSample (linesAt true true .out)) .sampleWhileOutput = true := by decide

theorem test_reservedU7_refused : refusedAs (exec .reservedU7 State.reset) .unusedMicroop = true := by decide

/-! ## Bus primitives and wire bytes (V11 to V20) -/

theorem test_busInit_codes : nextHas (exec .busInit State.reset)
    (fun s => s.trace.map (fun e => e.uop.code) == [4, 1, 3] && s.lines == Lines.idle) = true := by decide

theorem test_start_codes : nextHas (exec .start State.reset)
    (fun s => s.trace.map (fun e => e.uop.code) == [1, 3, 2, 0] &&
      s.lines == { clkOut := false, dioOut := false, dioDir := .out }) = true := by decide

theorem test_stop_codes : nextHas (exec .stop (linesAt false true .out))
    (fun s => s.trace.map (fun e => e.uop.code) == [0, 2, 1, 3] && s.lines == Lines.idle) = true := by decide

theorem test_readAck_codes : nextHas (exec .readAck { linesAt true false .out with dioIn := [true] })
    (fun s => s.trace.map (fun e => e.uop.code) == [0, 5, 3, 1, 6, 0, 4] && s.ackLast &&
      s.lines == { clkOut := false, dioOut := true, dioDir := .out }) = true := by decide

/-- V18: 0x06 sends bits 0,1,1,0,0,0,0,0. -/
theorem test_sendByte_codes : nextHas (exec (.sendByte 0x06) { linesAt false true .out with dioIn := [false] })
    (fun s => s.trace.map (fun e => e.uop.code) ==
      [0, 2, 1, 0, 3, 1, 0, 3, 1, 0, 2, 1, 0, 2, 1, 0, 2, 1, 0, 2, 1, 0, 2, 1, 0, 5, 3, 1, 6, 0, 4]) = true := by decide

/-- V20. -/
theorem test_cmdFrame_codes : nextHas (exec (.cmdFrame 0x8D) { State.reset with dioIn := [false] })
    (fun s => s.trace.map (fun e => e.uop.code) ==
      [1, 3, 2, 0, 0, 3, 1, 0, 2, 1, 0, 3, 1, 0, 3, 1, 0, 2, 1, 0, 2, 1, 0, 2, 1, 0, 3, 1, 0, 5, 3, 1, 6, 0, 4,
       0, 2, 1, 3]) = true := by decide

/-- V20: what the monitor makes of it. -/
theorem test_monitor_of_a_frame : nextHas (exec (.cmdFrame 0x8D) { State.reset with dioIn := [true] })
    (fun s => monitor s.trace == [[(0x8D, true)]]) = true := by decide

/-- V20: the level columns, at `n` = 2, 6, 29 and 33. -/
theorem test_frame_levels :
    linesAfter (cmdFrameUops 0x8D) 3 = { clkOut := true, dioOut := false, dioDir := .out } ∧
    linesAfter (cmdFrameUops 0x8D) 7 = { clkOut := true, dioOut := true, dioDir := .out } ∧
    linesAfter (cmdFrameUops 0x8D) 30 = { clkOut := false, dioOut := true, dioDir := .inp } ∧
    linesAfter (cmdFrameUops 0x8D) 34 = { clkOut := false, dioOut := true, dioDir := .inp } := by decide

theorem test_ctrl_is_a_frame : nextHas (exec (.ctrl true 5) { State.reset with dioIn := [false] })
    (fun s => monitor s.trace == [[(0x8D, false)]] && s.lines == Lines.idle) = true := by decide

theorem test_data_is_a_frame : nextHas (exec .data { State.reset with dioIn := [false] })
    (fun s => monitor s.trace == [[(0x40, false)]] && s.lines == Lines.idle) = true := by decide

theorem test_addr_opens_a_frame : nextHas (exec .addr { State.reset with dioIn := [false] })
    (fun s => (scan s.trace).cur == some [(0xC0, false)] && s.lines == Lines.afterByte) = true := by decide

theorem test_pattern_follows_in_the_frame : nextHas
    (thenDo (exec .addr { State.reset with dioIn := [false, true] }) (exec (.pattern true 0x3F)))
    (fun s => (scan s.trace).cur == some [(0xC0, false), (0xBF, true)]) = true := by decide

/-! ## Encoder and composer (V30 to V58) -/

theorem test_encode_vectors :
    segEncode Config.defaultSeg (1234 : BitVec 32) false = #v[0x06, 0x5B, 0x4F, 0x66] ∧
    segEncode Config.defaultSeg (-8 : BitVec 32) true = #v[0x3F, 0xBF, 0x3F, 0x7F] ∧
    segEncode Config.defaultSeg (19999 : BitVec 32) false = #v[0x6F, 0x6F, 0x6F, 0x6F] ∧
    segEncode Config.defaultSeg (-10000 : BitVec 32) true = #v[0x3F, 0xBF, 0x3F, 0x3F] ∧
    segEncode Config.defaultSeg (4321 : BitVec 32) true = #v[0x66, 0xCF, 0x5B, 0x06] := by decide

/-- V44, V45: the largest and the most negative value. -/
theorem test_encode_extremes :
    segEncode Config.defaultSeg (0x7FFFFFFF : BitVec 32) true = #v[0x4F, 0xFD, 0x66, 0x07] ∧
    segEncode Config.defaultSeg (0x80000000 : BitVec 32) false = #v[0x4F, 0x7D, 0x66, 0x7F] := by decide

theorem test_ctrl_vectors :
    ctrlOf (0 : BitVec 32) = 0x88 ∧ ctrlOf (5 : BitVec 32) = 0x8D ∧ ctrlOf (7 : BitVec 32) = 0x8F ∧
    ctrlOf (8 : BitVec 32) = 0x8F ∧ ctrlOf (0x7FFFFFFF : BitVec 32) = 0x8F ∧ ctrlOf (-1 : BitVec 32) = 0x80 ∧
    ctrlOf (0x80000000 : BitVec 32) = 0x80 := by decide

/-! ## Host operations, refusals and reset (V60 to V82) -/

theorem test_init_accepted : nextHas (step { State.reset with cmdIn := [0x1DEADBEEF] })
    (fun s => s.busy && s.op == 0 && s.cmdb == 0x8F && s.upc == 0 && s.trace == [] && s.cmdIn == []) = true := by decide

theorem test_bright_accepted : nextHas (step (idleWith [0x2FFFFFFFF, 0x200000005] []))
    (fun s => s.busy && s.op == 1 && s.cmdb == 0x80 && s.cmdIn == [0x200000005]) = true := by decide

theorem test_show_accepted : nextHas (step (idleWith [0x500000008] []))
    (fun s => s.busy && s.op == 2 && s.buf == #v[0x3F, 0xBF, 0x3F, 0x7F] && s.lines == Lines.idle) = true := by decide

/-- `BRIGHT -1` and `SHOW -8, colon` in 19-bit words (R71), and a `SHOW` of 2^32 + 5 in a 67-bit word, whose low digits
are 7301 (R145). -/
theorem test_accepted_at_other_widths :
    nextHas (step (atXlen 16 (idleWith [0x2FFFF] []))) (fun s => s.op == 1 && s.cmdb == 0x80) = true ∧
    nextHas (step (atXlen 16 (idleWith [0x5FFF8] [])))
      (fun s => s.op == 2 && s.buf == #v[0x3F, 0xBF, 0x3F, 0x7F]) = true ∧
    nextHas (step (atXlen 64 (idleWith [0x40000000100000005] [])))
      (fun s => s.op == 2 && s.buf == #v[0x07, 0x4F, 0x3F, 0x06]) = true := by decide

/-- V70, V71. -/
theorem test_refused_before_init :
    refusedAs (step { State.reset with cmdIn := [0x200000005] }) .beforeInit = true ∧
    refusedAs (step { State.reset with cmdIn := [0x400000000] }) .beforeInit = true := by decide

/-- V72, V73. -/
theorem test_reserved_opcode_refused :
    refusedAs (step (idleWith [0x600000000] [])) .reservedOpcode = true ∧
    refusedAs (step { State.reset with cmdIn := [0x600000000] }) .reservedOpcode = true := by decide

/-- V74: the word stays at the port and the micro-operation is performed. -/
theorem test_busy_port_not_looked_at : nextHas (step { busyAt 1 4 with cmdIn := [0x600000000] })
    (fun s => s.upc == 5 && s.cmdIn == [0x600000000] && s.busy) = true := by decide

/-- The last step of an `INIT` (R175). -/
theorem test_init_completes : nextHas (step { busyAt 0 41 with inited := false })
    (fun s => !s.busy && s.inited && s.upc == 0 && s.lines == Lines.idle) = true := by decide

/-- V81. -/
theorem test_reset_in_mid_frame : nextHas (step { busyAt 1 10 with rstIn := [true] })
    (fun s => s.lines == Lines.idle && !s.busy && s.upc == 0 && !s.inited && s.ackLast && s.trace == []) = true := by decide

/-- V66's table of line states. -/
theorem test_show_line_states :
    (busyAt 2 4).lines = { clkOut := false, dioOut := false, dioDir := .out } ∧
    (busyAt 2 35).lines = Lines.afterByte ∧ (busyAt 2 39).lines = Lines.idle ∧
    (busyAt 2 43).lines = { clkOut := false, dioOut := false, dioDir := .out } ∧
    (busyAt 2 74).lines = Lines.afterByte ∧ (busyAt 2 198).lines = Lines.afterByte := by decide

/-- V66's table of phases. -/
theorem test_show_phases :
    [0, 38, 39, 74, 105, 136, 167, 198, 201].map (fun n => (busyRegs 2 n).phase.code) = [1, 1, 2, 3, 4, 5, 6, 7, 7] := by
  decide

/-! ## Witnesses: states and operands that meet the hypotheses of each statement

Named after the statement; one conjunct for each clause. -/

/-- A step of `s` answers a next state. -/
def steppable (s : State) : Bool := nextHas (step s) fun _ => true

theorem steppable_iff (s : State) : steppable s = true ↔ ∃ t, step s = .next t := by
  unfold steppable nextHas
  split <;> simp_all

theorem witness_DecodeOfEncodeIsTheInstruction :
    (Instr.showDec (-8) true).wellFormed 32 = true ∧ (Instr.bright (-2147483648)).wellFormed 32 = true ∧
    (Instr.bright 32767).wellFormed 16 = true ∧ 16 ≤ 16 ∧
    (Instr.ctrl false 0).wellFormed 32 = true ∧ (Instr.pattern true 0x7F).wellFormed 32 = true ∧
    (Instr.sendByte 0xFF).wellFormed 32 = true ∧ Instr.dioSample.wellFormed 32 = true := by decide

theorem witness_HostWordsHaveOneMeaning :
    (opField 0x2FFFFFFFF#35 = 1 ∧ colonField 0x2FFFFFFFF#35 = false) ∧ opField 0x580000000#35 = 2 := by decide

theorem witness_StepRunsThePresentedWord :
    let s := idleWith [0x500000008, 0x000000000] []
    s.rstNow = false ∧ s.busy = false ∧ s.cmdIn = [0x500000008, 0x000000000] := by decide

/-- The first, an inner and the last position. -/
theorem witness_MicroStepPerformsThenAdvances :
    (busyAt 1 0).rstNow = false ∧ (busyAt 1 0).busy = true ∧ (busyAt 1 0).currentUop = some .clkHi ∧
    (busyAt 2 100).currentUop = some .dioHi ∧ (busyAt 0 41).currentUop = some .dioHi := by decide

/-- One idle state for each of the five outcomes. -/
theorem witness_AcceptChecksThenLatches :
    (idleWith [0x600000000] []).rstNow = false ∧ (idleWith [0x600000000] []).busy = false ∧
    opField (portWord (idleWith [] []).params 0x600000000) = 3 ∧
    (opField (portWord State.reset.params 0x200000005) = 1 ∧
      { State.reset with cmdIn := [0x200000005] }.inited = false) ∧
    opField (portWord State.reset.params 0x000000000) = 0 ∧
    (opField (portWord (idleWith [] []).params 0x200000000) = 1 ∧ (idleWith [0x200000000] []).inited = true) ∧
    (opField (portWord (atXlen 16 (idleWith [] [])).params 0x5FFF8) = 2 ∧
      (atXlen 16 (idleWith [0x5FFF8] [])).inited = true) := by decide

theorem witness_ResetStepWins : { busyAt 1 10 with rstIn := [true] }.rstNow = true := by decide

theorem witness_IdleBlockWithoutAWordStaysIdle :
    State.reset.rstNow = false ∧ State.reset.busy = false ∧ State.reset.cmdIn = [] := by decide

theorem witness_BusyBlockDoesNotLookAtThePort :
    ∃ t, (busyAt 2 41).busy = true ∧ step (busyAt 2 41) = .next t := by
  obtain ⟨t, h⟩ := (steppable_iff (busyAt 2 41)).mp (by decide)
  exact ⟨t, by decide, h⟩

theorem witness_HostOperationsOnABusyBlockChangeNothing : (busyAt 1 0).busy = true := by decide

/-- For InitIsAcceptedWheneverIdle, BrightLatchesItsControlByte, ShowLatchesItsFourPatterns and
OperationsBeforeInitAreRefused. -/
theorem witness_host_operations_on_an_idle_block :
    (State.reset.busy = false ∧ State.reset.inited = false ∧ State.reset.params.Ok) ∧
    (idleWith [] []).busy = false ∧ (idleWith [] []).inited = true := by decide

/-- The operand clauses of BrightLatchesItsControlByte and ShowLatchesItsFourPatterns, at both ends of the narrowest
range. -/
theorem witness_operands_in_range :
    16 ≤ (atXlen 16 State.reset).params.xlen ∧
    (Instr.bright (-32768)).wellFormed (atXlen 16 State.reset).params.xlen = true ∧
    (Instr.showDec 32767 true).wellFormed (atXlen 16 State.reset).params.xlen = true := by decide

/-- Two values and two widths with the same magnitude modulo 10000. -/
theorem witness_EncodeSeesTheMagnitudeModuloTenThousand :
    (19999 : BitVec 32).toInt.natAbs % 10000 = (-9999 : BitVec 16).toInt.natAbs % 10000 := by decide

theorem witness_ColonSetsTheTopBitOfByteOne : Config.vectorParams.seg.Ok := by decide

/-- The boundaries of the three classes. -/
theorem witness_CtrlHasThreeValueClasses :
    (-1 : BitVec 32).toInt < 0 ∧ (0x80000000 : BitVec 32).toInt < 0 ∧ (0 : BitVec 32).toInt = (0 : Nat) ∧
    (7 : BitVec 32).toInt = (7 : Nat) ∧ 7 < (8 : BitVec 32).toInt ∧
    7 < (0x7FFFFFFF : BitVec 32).toInt ∧ 16 ≤ 32 := by decide

theorem witness_DataWritesDriveTheDataLine :
    (linesAt true true .inp).lines.dioDir = .inp ∧
    (linesAt true false .out).lines = { clkOut := true, dioOut := false, dioDir := .out } ∧
    (linesAt true true .out).lines = { clkOut := true, dioOut := true, dioDir := .out } ∧
    ((busyAt 1 2).Inv ∧ (busyAt 1 2).busy = true ∧ (busyAt 1 2).currentUop = some .dioLo) := by decide

theorem witness_DirectionWritesTurnTheDataLineRound :
    ((busyAt 1 29).Inv ∧ (busyAt 1 29).busy = true ∧ (busyAt 1 29).currentUop = some .dioDirIn) ∧
    ((busyAt 1 34).Inv ∧ (busyAt 1 34).busy = true ∧ (busyAt 1 34).currentUop = some .dioDirOut) ∧
    ((busyAt 0 0).Inv ∧ (busyAt 0 0).busy = true ∧ (busyAt 0 0).currentUop = some .dioDirOut) := by decide

theorem witness_SampleLatchesTheGivenLevel :
    (linesAt true true .inp).lines.dioDir = .inp ∧ (linesAt true true .inp).dioIn = [] ∧
    { linesAt true true .inp with dioIn := [false, true] }.dioIn = [false, true] ∧
    (linesAt true true .out).lines.dioDir = .out ∧
    ((busyAt 2 71).Inv ∧ (busyAt 2 71).busy = true ∧ (busyAt 2 71).currentUop = some .dioSample) := by decide

theorem witness_StopRaisesClockThenData :
    (linesAt false true .out).lines = Lines.afterByte ∧
    nextHas (exec .stop (linesAt false true .out)) (fun _ => true) = true := by decide

/-- For DataRegistersAreWrittenOnlyByAccept, InitedIsSetOnlyByTheEndOfInit, AckLastIsWrittenOnlyBySamples,
LinesMoveOnlyByMicroOperations, TraceGrowsByTheMicroOperationPerformed and ParametersNeverChange: a busy block, at a sample and at the end of an `INIT` too, and
an idle block that accepts each of the three operations, with the register it writes changed. -/
theorem witness_steps_without_a_reset :
    ((busyAt 2 71).rstNow = false ∧ (busyAt 2 71).busy = true ∧ steppable (busyAt 2 71) = true) ∧
    steppable { busyAt 0 41 with inited := false } = true ∧
    nextHas (step (idleWith [0x500000008] [])) (fun t => t.buf != (idleWith [] []).buf && t.op != 0) = true ∧
    nextHas (step (idleWith [0x200000005] [])) (fun t => t.cmdb != (idleWith [] []).cmdb && t.op != 0) = true ∧
    nextHas (step (idleWith [0x000000000] [])) (fun t => t.cmdb != (idleWith [] []).cmdb) = true := by decide

theorem witness_PhaseCountsTheThresholdsPassed :
    State.reset.busy = false ∧ ((busyRegs 1 38).busy = true ∧ (busyRegs 1 38).op ≠ 2) ∧
    ((busyRegs 2 39).busy = true ∧ (busyRegs 2 39).op = 2) := by decide

theorem witness_OpenDrainWiresFollowTheLatches :
    (linesAt true false .inp).lines.dioDir = .inp ∧ (linesAt true false .out).lines.dioDir = .out := by decide

/-- For EveryStepKeepsTheLinesInStep, EveryStepKeepsTheTraceFramed, BusyBlockAlwaysSteps and
StartAndStopEventsOnlyAtTheirPlaces: the invariants hold idle, at the ends of each list and in a frame, and those blocks have a step. -/
theorem witness_invariants_with_a_step :
    (State.reset.Inv ∧ State.reset.Framed ∧ steppable State.reset = true) ∧
    ((busyAt 0 41).Inv ∧ (busyAt 0 41).Framed ∧ steppable (busyAt 0 41) = true) ∧
    ((busyAt 1 2).Inv ∧ (busyAt 1 2).Framed ∧ (busyAt 1 2).rstNow = false ∧ steppable (busyAt 1 2) = true) := by decide

/-- The same before the second start event of a `SHOW`. -/
theorem witness_invariants_in_a_show :
    (busyAt 2 41).Inv ∧ (busyAt 2 41).Framed ∧ (busyAt 2 41).rstNow = false ∧ steppable (busyAt 2 41) = true := by decide

theorem witness_IdleTraceIsBalanced : State.reset.Framed ∧ State.reset.busy = false := by decide

/-- At a change of the data level outside the framing events (the data write of bit 1 of 0x8D). -/
theorem witness_StartAndStopEventsOnlyAtTheirPlaces :
    (busyAt 1 8).Inv ∧ (busyAt 1 8).rstNow = false ∧ (busyAt 1 8).atStartThird = false ∧
    (busyAt 1 8).atStopFourth = false ∧
    nextHas (step (busyAt 1 8)) (fun t => t.lines.ownDio != (busyAt 1 8).lines.ownDio) = true := by decide

/-- Both ends of the window, and the place before it. -/
theorem witness_DataLineIsInputOnlyInTheAckWindow :
    ((busyAt 1 29).Inv ∧ (busyAt 1 29).inAckWindow = false) ∧ ((busyAt 1 30).Inv ∧ (busyAt 1 30).inAckWindow = true) ∧
    ((busyAt 1 34).Inv ∧ (busyAt 1 34).inAckWindow = true) := by decide

theorem witness_AcknowledgmentsNeverAlterTheRun :
    (busyAt 1 32).NoReset 2 ∧ nextHas (steps 2 (busyAt 1 32)) (fun _ => true) = true := by decide

theorem witness_EveryOperationRunsToCompletion :
    ((busyAt 1 0).Inv ∧ (busyAt 1 0).busy = true ∧ (busyAt 1 0).NoReset 39) ∧
    ((busyAt 0 41).Inv ∧ (busyAt 0 41).busy = true ∧ (busyAt 0 41).NoReset 1) := by decide

theorem witness_InitRunSendsOneFrame :
    let s := { State.reset with cmdIn := [0x000000000], dioIn := [false] }
    s.Inv ∧ s.Framed ∧ s.busy = false ∧ s.cmdIn = [0x000000000] ∧
    decodeHost (portWord s.params 0x000000000) = .init ∧ s.NoReset 43 ∧ s.dioIn ≠ [] := by decide

theorem witness_BrightRunSendsOneFrame :
    let s := idleWith [0x200000005] [true]
    s.Inv ∧ s.Framed ∧ s.busy = false ∧ s.inited = true ∧ s.cmdIn = [0x200000005] ∧
    decodeHost (portWord s.params 0x200000005) = .bright 5 ∧ s.NoReset 40 ∧ s.dioIn ≠ [] := by decide

theorem witness_ShowRunSendsTwoFrames :
    let s := idleWith [0x4000004D2] [false, false, false, false, false, false]
    s.Inv ∧ s.Framed ∧ s.busy = false ∧ s.inited = true ∧ s.cmdIn = [0x4000004D2] ∧
    decodeHost (portWord s.params 0x4000004D2) = .showDec 1234 false ∧ s.NoReset 203 ∧ 6 ≤ s.dioIn.length := by decide

theorem witness_MicroStepsComposeThePrimitives :
    ((busyRegs 0 0).busy = true ∧ (busyRegs 0 0).upc = 0 ∧ (busyRegs 0 0).op = 0 ∧ (busyRegs 0 0).NoReset 42) ∧
    ((busyRegs 1 0).op = 1 ∧ (busyRegs 1 0).NoReset 39) ∧ ((busyRegs 2 0).op = 2 ∧ (busyRegs 2 0).NoReset 202) := by decide

/-- The reset state with `INIT` and then a `SHOW` in store. -/
def dutiful : State := { State.reset with cmdIn := [0x000000000, 0x4000004D2] }

/-- A block in the middle of its first `INIT`, with a `BRIGHT` in store. -/
def dutifulMidInit : State := { busyAt 0 10 with inited := false, cmdIn := [0x200000005] }

theorem dutiful_duties : dutiful.HostDuties := by
  refine ⟨?_, by decide, fun _ _ => ?_⟩
  · simp only [dutiful, List.forall_mem_cons]
    exact ⟨by decide, by decide, nofun⟩
  · simp only [dutiful, List.take_succ_cons, List.take_zero, List.forall_mem_cons]
    exact ⟨by decide, nofun⟩

theorem dutifulMidInit_duties : dutifulMidInit.HostDuties := by
  refine ⟨?_, by decide, fun _ h => absurd h (by decide)⟩
  simp only [dutifulMidInit, List.forall_mem_cons]
  exact ⟨by decide, nofun⟩

theorem witness_DutifulHostIsNeverRefused :
    (dutiful.Inv ∧ dutiful.HostDuties ∧ dutiful.NoReset 5) ∧
    (dutifulMidInit.Inv ∧ dutifulMidInit.HostDuties ∧ dutifulMidInit.NoReset 40) :=
  ⟨⟨by decide, dutiful_duties, by decide⟩, by decide, dutifulMidInit_duties, by decide⟩

theorem witness_EveryDutifulRunEnds :
    dutiful.Inv ∧ dutiful.HostDuties ∧ ∀ b ∈ dutiful.rstIn, b = false :=
  ⟨by decide, dutiful_duties, by decide⟩

end Sys2Proof.Tests
end

/-! # Runs of the block: the rest of an operation, and the whole list of words (R9, R171, R175) -/

namespace Sys2Proof.Machine

open Sys2Proof

/-! ## The lists `prog(op)` -/

theorem progLen_le (op : BitVec 2) : progLen op ≤ 202 := by
  revert op; decide

/-- The four opcodes, the reserved one last (R72). -/
theorem opcode_cases (op : BitVec 2) : op = 0 ∨ op = 1 ∨ op = 2 ∨ op = 3 := by
  revert op; decide

@[simp] theorem length_busInitUops : busInitUops.length = 3 := rfl
@[simp] theorem length_startUops : startUops.length = 4 := rfl
@[simp] theorem length_stopUops : stopUops.length = 4 := rfl
@[simp] theorem length_sendByteUops (b : Byte) : (sendByteUops b).length = 31 := rfl
@[simp] theorem length_cmdFrameUops (b : Byte) : (cmdFrameUops b).length = 39 := rfl

/-- The list of `INIT` (R163). -/
theorem prog_init (p : Params) (cmdb : Byte) (buf : Vector Byte 4) :
    prog p cmdb buf 0 = busInitUops ++ cmdFrameUops cmdb := rfl

/-- The list of `BRIGHT` (R164). -/
theorem prog_bright (p : Params) (cmdb : Byte) (buf : Vector Byte 4) : prog p cmdb buf 1 = cmdFrameUops cmdb := rfl

/-- The four pattern bytes of a `SHOW`, thousands first (R165). -/
def patternUops (buf : Vector Byte 4) : List Uop :=
  sendByteUops buf[0] ++ sendByteUops buf[1] ++ sendByteUops buf[2] ++ sendByteUops buf[3]

/-- The list of `SHOW` (R165). -/
theorem prog_show (p : Params) (cmdb : Byte) (buf : Vector Byte 4) :
    prog p cmdb buf 2 =
      cmdFrameUops p.cmdData ++ (startUops ++ (sendByteUops p.cmdAddr ++ (patternUops buf ++ stopUops))) := by
  simp [prog, patternUops]

/-- The reserved opcode has no list (R166). -/
theorem prog_reserved (p : Params) (cmdb : Byte) (buf : Vector Byte 4) : prog p cmdb buf 3 = [] := rfl

@[simp] theorem length_patternUops (buf : Vector Byte 4) : (patternUops buf).length = 124 := by
  simp [patternUops]

@[simp] theorem length_prog (p : Params) (cmdb : Byte) (buf : Vector Byte 4) (op : BitVec 2) :
    (prog p cmdb buf op).length = progLen op := by
  obtain rfl | rfl | rfl | rfl := opcode_cases op
  · rw [prog_init, List.length_append]; rfl
  · rw [prog_bright]; rfl
  · rw [prog_show]
    simp [progLen]
  · rfl

/-- An element of a list given by index. -/
theorem getElem?_of_eq_map_range {us : List Uop} {f : Nat → Uop} {n : Nat} (h : us = (List.range n).map f) {i : Nat}
    (hi : i < n) : us[i]? = some (f i) := by
  rw [h, List.getElem?_map, List.getElem?_range hi, Option.map_some]

theorem getElem?_busInitUops {i : Nat} (hi : i < 3) : busInitUops[i]? = some (busInitUop i) :=
  getElem?_of_eq_map_range (f := busInitUop) rfl hi

theorem getElem?_startUops {i : Nat} (hi : i < 4) : startUops[i]? = some (startUop i) :=
  getElem?_of_eq_map_range (f := startUop) rfl hi

theorem getElem?_stopUops {i : Nat} (hi : i < 4) : stopUops[i]? = some (stopUop i) :=
  getElem?_of_eq_map_range (f := stopUop) rfl hi

theorem getElem?_sendByteUops (b : Byte) {i : Nat} (hi : i < 31) : (sendByteUops b)[i]? = some (byteUop b i) :=
  getElem?_of_eq_map_range (f := byteUop b) rfl hi

theorem getElem?_cmdFrameUops (b : Byte) {i : Nat} (hi : i < 39) : (cmdFrameUops b)[i]? = some (frameUop b i) :=
  getElem?_of_eq_map_range (f := frameUop b) rfl hi

/-- The byte and the place in it that `SHOW` has reached among its patterns (R172). -/
theorem getElem?_patternUops (buf : Vector Byte 4) {i : Nat} (hi : i < 124) :
    (patternUops buf)[i]? = some (byteUop (bufAt buf (i / 31)) (i % 31)) := by
  obtain ⟨k, j, hj, rfl⟩ : ∃ k j, j < 31 ∧ i = 31 * k + j := ⟨i / 31, i % 31, Nat.mod_lt _ (by omega), by omega⟩
  rw [show (31 * k + j) / 31 = k by omega, show (31 * k + j) % 31 = j by omega]
  simp only [patternUops, List.getElem?_append, List.length_append, length_sendByteUops]
  obtain rfl | rfl | rfl | rfl : k = 0 ∨ k = 1 ∨ k = 2 ∨ k = 3 := by omega
  all_goals
    simp (disch := omega) only [if_pos, if_neg, Nat.add_sub_cancel_left, Nat.zero_add, Nat.mul_zero, Nat.reduceAdd,
      Nat.reduceMul, getElem?_sendByteUops, bufAt]

/-- The closed form of R172 inside the list of `SHOW`. -/
theorem getElem?_prog_show (p : Params) (cmdb : Byte) (buf : Vector Byte 4) {n : Nat} (hn : n < 202) :
    (prog p cmdb buf 2)[n]? =
      some (if n < 39 then frameUop p.cmdData n
        else if n < 43 then startUop (n - 39)
        else if n < 74 then byteUop p.cmdAddr (n - 43)
        else if n < 198 then byteUop (bufAt buf ((n - 74) / 31)) ((n - 74) % 31)
        else stopUop (n - 198)) := by
  simp only [prog_show, List.getElem?_append, length_cmdFrameUops, length_startUops, length_sendByteUops,
    length_patternUops, Nat.sub_sub, Nat.reduceAdd]
  obtain h | h | h | h | h : n < 39 ∨ (39 ≤ n ∧ n < 43) ∨ (43 ≤ n ∧ n < 74) ∨ (74 ≤ n ∧ n < 198) ∨ 198 ≤ n := by omega
  all_goals
    simp (disch := omega) only [if_pos, if_neg, getElem?_cmdFrameUops, getElem?_startUops, getElem?_sendByteUops,
      getElem?_patternUops, getElem?_stopUops]

/-- The closed form of R172 names the elements of the flattened list, and nothing outside it. -/
theorem uopAt_eq_getElem? (p : Params) (cmdb : Byte) (buf : Vector Byte 4) (op : BitVec 2) (n : Nat) :
    uopAt p cmdb buf op n = (prog p cmdb buf op)[n]? := by
  by_cases hn : n < progLen op
  case neg => rw [uopAt, if_neg hn, List.getElem?_eq_none (by simpa using hn)]
  rw [uopAt, if_pos hn]
  obtain rfl | rfl | rfl | rfl := opcode_cases op
  · change n < 42 at hn
    change some (if n < 3 then busInitUop n else frameUop cmdb (n - 3)) = _
    rw [prog_init, List.getElem?_append, length_busInitUops]
    split
    · rw [getElem?_busInitUops ‹_›]
    · rw [getElem?_cmdFrameUops cmdb (by omega)]
  · exact (getElem?_cmdFrameUops cmdb hn).symm
  · exact (getElem?_prog_show p cmdb buf hn).symm
  · exact absurd hn (Nat.not_lt_zero n)

theorem State.currentUop_eq_getElem? (s : State) : s.currentUop = s.prog[s.upc.toNat]? :=
  uopAt_eq_getElem? ..

/-! ## No list is ever refused -/

/-- A list of micro-operations that goes through from every state. -/
def NeverRefused (us : List Uop) : Prop := ∀ s, ∃ t, performAll us s = .next t

theorem NeverRefused.append {us vs : List Uop} (hu : NeverRefused us) (hv : NeverRefused vs) :
    NeverRefused (us ++ vs) := fun s => by
  obtain ⟨m, hm⟩ := hu s
  obtain ⟨t, ht⟩ := hv m
  exact ⟨t, by rw [performAll_append, hm, thenDo_next, ht]⟩

/-- Only a sample can be refused (R107). -/
theorem neverRefused_of_no_sample {us : List Uop} (h : .dioSample ∉ us) : NeverRefused us := by
  induction us with
  | nil => exact fun s => ⟨s, rfl⟩
  | cons u us ih =>
    intro s
    obtain ⟨hu, hus⟩ := not_or.mp (mt List.mem_cons.mpr h)
    obtain ⟨t, ht⟩ := ih hus (s.drive u)
    exact ⟨t, by rw [performAll_cons, performUop_drive (Ne.symm hu), thenDo_next, ht]⟩

/-- `READ_ACK` turns the line to an input before it samples (R125). -/
theorem neverRefused_readAck : NeverRefused readAckUops := fun _ => ⟨_, rfl⟩

theorem dioSample_not_mem_bitUops (v : Bool) : .dioSample ∉ bitUops v := by
  cases v <;> decide

theorem neverRefused_sendByte (b : Byte) : NeverRefused (sendByteUops b) :=
  .append (neverRefused_of_no_sample (by simp [dioSample_not_mem_bitUops])) neverRefused_readAck

theorem neverRefused_start : NeverRefused startUops := neverRefused_of_no_sample (by decide)

theorem neverRefused_stop : NeverRefused stopUops := neverRefused_of_no_sample (by decide)

theorem neverRefused_cmdFrame (b : Byte) : NeverRefused (cmdFrameUops b) :=
  (neverRefused_start.append (neverRefused_sendByte b)).append neverRefused_stop

theorem neverRefused_prog (p : Params) (cmdb : Byte) (buf : Vector Byte 4) (op : BitVec 2) :
    NeverRefused (prog p cmdb buf op) := by
  obtain rfl | rfl | rfl | rfl := opcode_cases op
  · exact .append (neverRefused_of_no_sample (by decide)) (neverRefused_cmdFrame cmdb)
  · exact neverRefused_cmdFrame cmdb
  · have hpatterns : NeverRefused (patternUops buf) := (((neverRefused_sendByte _).append
      (neverRefused_sendByte _)).append (neverRefused_sendByte _)).append (neverRefused_sendByte _)
    rw [prog_show]
    exact (neverRefused_cmdFrame _).append (neverRefused_start.append ((neverRefused_sendByte _).append
      (hpatterns.append neverRefused_stop)))
  · exact neverRefused_of_no_sample List.not_mem_nil

/-- On idle lines the list of an operation finds the data line an input at each of its samples (R36, R107). -/
theorem dioDir_at_sample {us : List Uop} (hok : NeverRefused us) {n : Nat} (hn : us[n]? = some .dioSample) :
    (linesAfter us n).dioDir = .inp := by
  obtain ⟨t, ht⟩ := hok { State.reset with lines := Lines.idle }
  obtain ⟨hlt, hget⟩ := List.getElem?_eq_some_iff.mp hn
  rw [← List.take_append_drop n us, List.drop_eq_getElem_cons hlt, hget, performAll_append] at ht
  obtain ⟨m, hm, hrest⟩ := thenDo_eq_next.mp ht
  obtain ⟨m', hm', -⟩ := thenDo_eq_next.mp hrest
  obtain ⟨hne, -⟩ | ⟨-, hdir, -⟩ := performUop_cases hm'
  · exact absurd rfl hne
  · rwa [performAll_lines hm] at hdir

/-! ## The lines at the end of a list -/

/-- `SEND_BYTE` sets every line register in its acknowledgment, whatever they held (R125, R128). -/
theorem foldl_perform_sendByte (b : Byte) (l : Lines) :
    (sendByteUops b).foldl (fun l u => l.perform u) l = Lines.afterByte := by
  rw [sendByteUops, List.foldl_append]
  rfl

theorem foldl_perform_cmdFrame (b : Byte) (l : Lines) :
    (cmdFrameUops b).foldl (fun l u => l.perform u) l = Lines.idle := by
  rw [cmdFrameUops, List.foldl_append, List.foldl_append, foldl_perform_sendByte]
  rfl

/-- The three lists end on idle lines (R128). -/
theorem linesAfter_prog_end (p : Params) (cmdb : Byte) (buf : Vector Byte 4) (op : BitVec 2) :
    linesAfter (prog p cmdb buf op) (progLen op) = Lines.idle := by
  rw [linesAfter, ← length_prog p cmdb buf op, List.take_length]
  obtain rfl | rfl | rfl | rfl := opcode_cases op
  · exact (List.foldl_append ..).trans (foldl_perform_cmdFrame ..)
  · exact foldl_perform_cmdFrame ..
  · refine (List.foldl_append ..).trans ?_
    rw [List.foldl_append, foldl_perform_sendByte]
    rfl
  · rfl

/-! ## Steps of an operation in progress -/

/-- `t` comes from `s` by `k` micro-operations of the list in progress: they are in the trace, `rst` was sampled at each,
and the registers that no micro-operation writes are as they were (R100, R171). -/
structure State.RanFor (s : State) (k : Nat) (t : State) : Prop where
  op : t.op = s.op
  cmdb : t.cmdb = s.cmdb
  buf : t.buf = s.buf
  params : t.params = s.params
  cmdIn : t.cmdIn = s.cmdIn
  rstIn : t.rstIn = s.rstIn.drop k
  trace : t.trace.map PinEvent.uop = s.trace.map PinEvent.uop ++ (s.prog.drop s.upc.toNat).take k

theorem State.RanFor.refl (s : State) : s.RanFor 0 s := by constructor <;> simp

theorem State.RanFor.prog_eq {s t : State} {k : Nat} (h : s.RanFor k t) : t.prog = s.prog := by
  simp [State.prog, h.op, h.cmdb, h.buf, h.params]

theorem State.RanFor.trans {s t u : State} {j k : Nat} (h : s.RanFor j t) (hpos : t.upc.toNat = s.upc.toNat + j)
    (h' : t.RanFor k u) : s.RanFor (j + k) u where
  op := h'.op.trans h.op
  cmdb := h'.cmdb.trans h.cmdb
  buf := h'.buf.trans h.buf
  params := h'.params.trans h.params
  cmdIn := h'.cmdIn.trans h.cmdIn
  rstIn := by rw [h'.rstIn, h.rstIn, List.drop_drop]
  trace := by rw [h'.trace, h.trace, h.prog_eq, hpos, List.append_assoc, List.take_add, List.drop_drop]

/-- No reset in store for more steps is none for fewer. -/
theorem State.NoReset.mono {s : State} {m n : Nat} (h : s.NoReset n) (hmn : m ≤ n) : s.NoReset m :=
  fun b hb => h b (List.take_subset_take_left _ hmn hb)

/-- A run that has `n` steps without a reset in store meets none after fewer of them. -/
theorem State.RanFor.rstNow_eq_false {s t : State} {k n : Nat} (h : s.RanFor k t) (hr : s.NoReset n) (hk : k < n) :
    t.rstNow = false := by
  rw [State.rstNow, h.rstIn, List.headD_eq_head?_getD, List.head?_drop]
  cases hb : s.rstIn[k]? with
  | none => rfl
  | some b =>
    refine hr b (List.mem_iff_getElem?.mpr ⟨k, ?_⟩)
    rw [List.getElem?_take, if_pos hk, hb]

/-- The position of an operation in progress holds a micro-operation, and it is not refused. -/
theorem State.Inv.performUop_next {s : State} (hI : s.Inv) (hb : s.busy = true) :
    ∃ u m, s.prog[s.upc.toNat]? = some u ∧ performUop u s = .next m := by
  obtain ⟨hlt, hlines⟩ := hI.2 hb
  have hlen : s.upc.toNat < s.prog.length := by rwa [State.prog, length_prog]
  obtain ⟨u, hu⟩ : ∃ u, s.prog[s.upc.toNat]? = some u := ⟨_, List.getElem?_eq_getElem hlen⟩
  by_cases hs : u = .dioSample
  · subst hs
    exact ⟨_, _, hu, performUop_sample (hlines ▸ dioDir_at_sample (neverRefused_prog s.params s.cmdb s.buf s.op) hu)⟩
  · exact ⟨u, _, hu, performUop_drive hs s⟩

/-- One step of an operation in progress: its micro-operation, then the advance of the state `m` it left (R171). -/
theorem State.Inv.busy_step {s : State} (hI : s.Inv) (hb : s.busy = true) (hr : s.rstNow = false) :
    ∃ m : State, step s = .next m.advance ∧ s.RanFor 1 m ∧ m.busy = true ∧ m.upc = s.upc ∧ m.inited = s.inited ∧
      m.lines = linesAfter s.prog (s.upc.toNat + 1) := by
  obtain ⟨u, m, hu, hm⟩ := State.Inv.performUop_next (s := s.tick) hI hb
  replace hu : s.prog[s.upc.toNat]? = some u := hu
  obtain ⟨hbuf, hcmdb, hop, hupc, hbusy, hinited, hparams, hcmdIn, hrstIn⟩ := performUop_frame hm
  obtain ⟨e, rfl, htrace⟩ := performUop_trace hm
  refine ⟨m, ?_, ⟨hop, hcmdb, hbuf, hparams, hcmdIn, ?_, ?_⟩, hbusy.trans hb, hupc, hinited, ?_⟩
  · rw [step_of_busy hr hb (s.currentUop_eq_getElem?.trans hu), hm, thenDo_next]
  · rw [hrstIn, State.tick_rstIn, List.drop_one]
  · rw [htrace, List.take_one, List.head?_drop, hu]
    simp
  · rw [performUop_lines hm, State.tick_lines, (hI.2 hb).2, linesAfter_succ hu]

/-- The advance writes none of the registers that `RanFor` speaks of. -/
theorem State.RanFor.advance {s m : State} {k : Nat} (h : s.RanFor k m) : s.RanFor k m.advance := by
  obtain ⟨hop, hcmdb, hbuf, hparams, hcmdIn, hrstIn, htrace⟩ := h
  constructor <;> simpa

/-- Before the end of the list a step moves the position by one and keeps the block busy (R27, R171). -/
theorem State.Inv.busy_step_inner {s : State} (hI : s.Inv) (hb : s.busy = true) (hr : s.rstNow = false)
    (hlt : s.upc.toNat + 1 < progLen s.op) :
    ∃ t, step s = .next t ∧ s.RanFor 1 t ∧ t.Inv ∧ t.busy = true ∧ t.upc.toNat = s.upc.toNat + 1 ∧
      t.inited = s.inited := by
  obtain ⟨m, hstep, hran, hbusy, hupc, hinited, hlines⟩ := hI.busy_step hb hr
  have hadv : m.advance = { m with upc := m.upc + 1 } := State.advance_inner (by rw [hupc, hran.op]; omega)
  have hle := progLen_le s.op
  have hpos : (m.upc + 1).toNat = s.upc.toNat + 1 := by rw [hupc]; bv_omega
  refine ⟨m.advance, hstep, hran.advance, ⟨?_, fun _ => ?_⟩, ?_, ?_, ?_⟩
  · simp [hadv, hbusy]
  · rw [hran.advance.prog_eq, State.advance_lines, State.advance_op, hran.op, hlines, hadv]
    exact ⟨hpos.symm ▸ hlt, by rw [← hpos]⟩
  · rw [hadv]; exact hbusy
  · rw [hadv]; exact hpos
  · rw [hadv]; exact hinited

/-- The last step of a list leaves the block idle, and initialised if the list was that of `INIT` (R128, R175). -/
theorem State.Inv.busy_step_last {s : State} (hI : s.Inv) (hb : s.busy = true) (hr : s.rstNow = false)
    (hlast : s.upc.toNat + 1 = progLen s.op) :
    ∃ t, step s = .next t ∧ s.RanFor 1 t ∧ t.busy = false ∧ t.lines = Lines.idle ∧ t.upc = 0 ∧
      t.inited = (s.inited || s.op == 0) := by
  obtain ⟨m, hstep, hran, -, hupc, hinited, hlines⟩ := hI.busy_step hb hr
  have hadv : m.advance = { m with upc := 0, busy := false, inited := m.inited || m.op == 0 } :=
    State.advance_last (by rw [hupc, hran.op, hlast])
  refine ⟨m.advance, hstep, hran.advance, ?_, ?_, ?_, ?_⟩
  · rw [hadv]
  · rw [State.advance_lines, hlines, hlast]
    exact linesAfter_prog_end ..
  · rw [hadv]
  · rw [hadv, hinited, hran.op]

/-! ## The rest of an operation -/

/-- Short of the end of the list the block stays busy, `k` places further on (R27, R171). -/
theorem State.Inv.run_inner {s : State} (hI : s.Inv) (hb : s.busy = true) {k : Nat} (hr : s.NoReset k)
    (hlt : s.upc.toNat + k < progLen s.op) :
    ∃ t, steps k s = .next t ∧ s.RanFor k t ∧ t.Inv ∧ t.busy = true ∧ t.upc.toNat = s.upc.toNat + k ∧
      t.inited = s.inited := by
  induction k with
  | zero => exact ⟨s, rfl, .refl s, hI, hb, rfl, rfl⟩
  | succ k ih =>
    obtain ⟨m, hm, hran, hmI, hmb, hpos, hinited⟩ := ih (hr.mono (Nat.le_succ k)) (by omega)
    obtain ⟨t, ht, hran', htI, htb, hpos', hinited'⟩ :=
      hmI.busy_step_inner hmb (hran.rstNow_eq_false hr (Nat.lt_succ_self k)) (by rw [hran.op]; omega)
    exact ⟨t, by rw [steps_add, hm, thenDo_next, steps_succ, ht]; rfl, hran.trans hpos hran', htI, htb, by omega,
      hinited'.trans hinited⟩

/-- The rest of the list brings the block to its idle state (R9, R175). -/
theorem State.Inv.run_to_end {s : State} (hI : s.Inv) (hb : s.busy = true) {k : Nat} (hr : s.NoReset k)
    (hk : s.upc.toNat + k = progLen s.op) :
    ∃ t, steps k s = .next t ∧ s.RanFor k t ∧ t.busy = false ∧ t.lines = Lines.idle ∧ t.upc = 0 ∧
      t.inited = (s.inited || s.op == 0) := by
  obtain ⟨hlt, -⟩ := hI.2 hb
  obtain ⟨j, rfl⟩ : ∃ j, k = j + 1 := ⟨k - 1, by omega⟩
  obtain ⟨m, hm, hran, hmI, hmb, hpos, hinited⟩ := hI.run_inner hb (hr.mono (Nat.le_succ j)) (by omega)
  obtain ⟨t, ht, hran', htb, htl, htu, hti⟩ :=
    hmI.busy_step_last hmb (hran.rstNow_eq_false hr (Nat.lt_succ_self j)) (by rw [hran.op]; omega)
  exact ⟨t, by rw [steps_add, hm, thenDo_next, steps_succ, ht]; rfl, hran.trans hpos hran', htb, htl, htu,
    by rw [hti, hinited, hran.op]⟩

/-- Settles O54: the steps short of the end are `run_inner`, the whole rest of the list is `run_to_end`. -/
theorem everyOperationRunsToCompletion : Obligations.EveryOperationRunsToCompletion := by
  intro s hI hb hr
  obtain ⟨hlt, -⟩ := hI.2 hb
  refine ⟨?_, fun n hn => ?_⟩
  · obtain ⟨t, ht, hran, hbusy, hlines, hupc, hinited⟩ := hI.run_to_end hb hr (by omega)
    have hall : (s.prog.drop s.upc.toNat).take (progLen s.op - s.upc.toNat) = s.prog.drop s.upc.toNat :=
      List.take_of_length_le (by rw [List.length_drop, State.prog, length_prog])
    exact ⟨t, ht, hbusy, hlines, hupc, hinited, hall ▸ hran.trace, hran.op, hran.cmdb, hran.buf, hran.params, hran.cmdIn⟩
  · obtain ⟨t, ht, -, -, hbusy, -⟩ := hI.run_inner hb (hr.mono hn.le) (by omega)
    exact ⟨t, ht, hbusy⟩

/-! ## The list of words -/

/-- A word is one of the three operations or the reserved opcode (R72, R84). -/
theorem decodeHost_cases {xlen : Nat} (cw : BitVec (xlen + 3)) :
    decodeHost cw = .init ∨ (∃ level, decodeHost cw = .bright level) ∨
      (∃ value colon, decodeHost cw = .showDec value colon) ∨ decodeHost cw = .reservedH3 := by
  unfold decodeHost
  split <;> simp

/-- The word that a dutiful host presents to an idle block is not refused (R166, R167, R230, R232). -/
theorem idleStep_next_of_duties {s : State} {n : Nat} {rest : List Nat} (hb : s.busy = false) (hd : s.HostDuties)
    (hc : s.cmdIn = n :: rest) : ∃ t, idleStep s = .next t := by
  obtain ⟨hreserved, -, hfirst⟩ := hd
  have hinited (hne : decodeHost (portWord s.params n) ≠ .init) : s.inited = true := by
    by_contra hi
    exact hne (hfirst (by simpa using hi) hb n (by simp [hc]))
  simp only [idleStep, hc]
  obtain h | ⟨level, h⟩ | ⟨value, colon, h⟩ | h := decodeHost_cases (portWord s.params n)
  · simp [h, exec, execInit, hb]
  · simp [h, exec, execBright, hb, hinited (by simp [h])]
  · simp [h, exec, execShow, hb, hinited (by simp [h])]
  · exact absurd h (hreserved n (by simp [hc]))

/-- An accepted word starts its operation at the first place of its list, on a block that is initialised unless the
operation is `INIT` (R161, R167). -/
theorem idleStep_accepts {s t : State} {n : Nat} {rest : List Nat} (hb : s.busy = false) (hc : s.cmdIn = n :: rest)
    (h : idleStep s = .next t) :
    t.busy = true ∧ t.upc = 0 ∧ t.lines = s.lines ∧ t.inited = s.inited ∧ t.params = s.params ∧ t.cmdIn = rest ∧
      t.rstIn = s.rstIn ∧ 0 < progLen t.op ∧ (t.inited = false → t.op = 0) := by
  obtain ⟨hnil, -⟩ | ⟨n', rest', hc', hacc⟩ := idleStep_cases hb h
  · simp [hc] at hnil
  · obtain ⟨rfl, rfl⟩ := List.cons.inj (hc.symm.trans hc')
    obtain ⟨-, rfl⟩ | ⟨_, -, hi, rfl⟩ | ⟨_, _, -, hi, rfl⟩ := hacc
    · simp [progLen]
    · simp [progLen, hi]
    · simp [progLen, hi]

/-- The completed operation leaves a dutiful host's duties met: a block not yet initialised has run its `INIT` (R175). -/
theorem State.HostDuties.of_completed {s t : State} {k : Nat} (hd : s.HostDuties) (hsb : s.busy = true)
    (hran : s.RanFor k t) (htb : t.busy = false) (hti : t.inited = (s.inited || s.op == 0)) : t.HostDuties := by
  obtain ⟨hreserved, hinit, -⟩ := hd
  refine ⟨?_, ?_, fun hi => ?_⟩
  · rwa [hran.cmdIn, hran.params]
  · simp [htb]
  · obtain ⟨hsi, hop⟩ := Bool.or_eq_false_iff.mp (hti ▸ hi)
    simp [hinit hsi hsb] at hop

/-- An idle block between two operations of a run: `words` in store, the host's duties met, and no reset to come. -/
structure State.Waiting (s : State) (words : List Nat) : Prop where
  inv : s.Inv
  idle : s.busy = false
  duties : s.HostDuties
  cmdIn : s.cmdIn = words
  noReset : ∀ b ∈ s.rstIn, b = false

/-- An operation in progress ends within its list, with the words in store untouched and the duties met. -/
theorem State.Inv.busy_run_ends {s : State} (hI : s.Inv) (hb : s.busy = true) (hd : s.HostDuties)
    (hr : ∀ b ∈ s.rstIn, b = false) : ∃ k t, k ≤ 202 ∧ steps k s = .next t ∧ t.Waiting s.cmdIn := by
  obtain ⟨hlt, -⟩ := hI.2 hb
  have hle := progLen_le s.op
  obtain ⟨t, ht, hran, hbusy, hlines, hupc, hinited⟩ :=
    hI.run_to_end hb (k := progLen s.op - s.upc.toNat) (fun b hm => hr b (List.mem_of_mem_take hm)) (by omega)
  exact ⟨_, t, by omega, ht,
    { inv := ⟨fun _ => ⟨hlines, hupc⟩, by simp [hbusy]⟩
      idle := hbusy
      duties := hd.of_completed hb hran hbusy hinited
      cmdIn := hran.cmdIn
      noReset := fun b hm => hr b (List.mem_of_mem_drop (hran.rstIn ▸ hm)) }⟩

/-- A dutiful host's word is accepted in one step, which leaves the invariant and the duties met (R161). -/
theorem State.Waiting.accepts {s : State} {n : Nat} {rest : List Nat} (h : s.Waiting (n :: rest)) :
    ∃ t, step s = .next t ∧ t.Inv ∧ t.busy = true ∧ t.HostDuties ∧ t.cmdIn = rest ∧ ∀ b ∈ t.rstIn, b = false := by
  obtain ⟨hI, hb, hd, hc, hr⟩ := h
  obtain ⟨t, ht⟩ := idleStep_next_of_duties (s := s.tick) hb hd hc
  obtain ⟨hbusy, hupc, hlines, -, hparams, hcmdIn, hrstIn, hlen, hinit⟩ := idleStep_accepts (s := s.tick) hb hc ht
  have hrst : s.rstNow = false :=
    (State.RanFor.refl s).rstNow_eq_false (n := 1) (fun b hm => hr b (List.mem_of_mem_take hm)) Nat.one_pos
  refine ⟨t, (step_of_idle hrst hb).trans ht, ⟨by simp [hbusy], fun _ => ?_⟩, hbusy,
    ⟨fun w hw => ?_, fun hi _ => hinit hi, by simp [hbusy]⟩, hcmdIn, fun b hm => ?_⟩
  · rw [hlines, hupc]
    exact ⟨hlen, (hI.1 hb).1⟩
  · rw [hparams]
    exact hd.1 w (by rw [hc]; exact List.mem_cons_of_mem n (hcmdIn ▸ hw))
  · exact hr b (List.mem_of_mem_tail (by rwa [hrstIn] at hm))

/-- A dutiful host's words are all accepted and performed, each in one step and its list: 203 steps at most (R9). -/
theorem State.Waiting.run_ends {words : List Nat} {s : State} (h : s.Waiting words) :
    ∃ n t, n ≤ 203 * words.length ∧ steps n s = .next t ∧ t.RunOver := by
  induction words generalizing s with
  | nil => exact ⟨0, s, Nat.zero_le _, rfl, h.cmdIn, h.idle⟩
  | cons w rest ih =>
    obtain ⟨m, hm, hmI, hmb, hmd, rfl, hmr⟩ := h.accepts
    obtain ⟨k, t, hk, ht, hwait⟩ := hmI.busy_run_ends hmb hmd hmr
    obtain ⟨n, u, hn, hu, hover⟩ := ih hwait
    exact ⟨k + n + 1, u, by rw [List.length_cons]; omega,
      by rw [steps_succ, hm, thenDo_next, steps_add, ht, thenDo_next, hu], hover⟩

/-- Settles O60: the operation in progress first, then the words one by one. -/
theorem everyDutifulRunEnds : Obligations.EveryDutifulRunEnds := by
  intro s hI hd hr
  cases hb : s.busy with
  | false =>
    obtain ⟨n, t, hn, ht, hover⟩ := State.Waiting.run_ends ⟨hI, hb, hd, rfl, hr⟩
    exact ⟨n, t, by omega, ht, hover⟩
  | true =>
    obtain ⟨k, m, hk, hm, hwait⟩ := hI.busy_run_ends hb hd hr
    obtain ⟨n, t, hn, ht, hover⟩ := hwait.run_ends
    exact ⟨k + n, t, by omega, by rw [steps_add, hm, thenDo_next, ht], hover⟩

end Sys2Proof.Machine

/-! # The state: the invariant that every step keeps, and what each register is written by (spec/10_state.md) -/

namespace Sys2Proof.Machine

open Sys2Proof

/-! ## The invariant of the sequencer and the lines (R36, R128) -/

/-- Reset leaves the block idle on idle lines (R220). -/
theorem State.inv_takeReset (s : State) : s.takeReset.Inv := ⟨fun _ => ⟨rfl, rfl⟩, nofun⟩

/-- An idle step stays idle, or starts a list at its first place on idle lines (R161). -/
theorem State.Inv.of_idleStep {s t : State} (hI : s.Inv) (hb : s.busy = false) (h : idleStep s = .next t) : t.Inv := by
  obtain ⟨hlines, -⟩ := hI.1 hb
  cases hc : s.cmdIn with
  | nil =>
    obtain ⟨-, rfl⟩ | ⟨_, _, hne, -⟩ := idleStep_cases hb h
    · exact hI
    · simp [hc] at hne
  | cons n rest =>
    obtain ⟨hbusy, hupc, hsame, -, -, -, -, hlen, -⟩ := idleStep_accepts hb hc h
    refine ⟨by simp [hbusy], fun _ => ?_⟩
    rw [hupc, hsame]
    exact ⟨hlen, hlines⟩

/-- A step of an operation in progress moves along its list, or ends it on idle lines (R128, R171). -/
theorem State.Inv.of_microStep {s t : State} (hI : s.Inv) (hb : s.busy = true) (hr : s.rstNow = false)
    (h : step s = .next t) : t.Inv := by
  obtain ⟨hlt, -⟩ := hI.2 hb
  obtain hinner | hlast : s.upc.toNat + 1 < progLen s.op ∨ s.upc.toNat + 1 = progLen s.op := by omega
  · obtain ⟨t', ht', -, hI', -⟩ := hI.busy_step_inner hb hr hinner
    rwa [Host.Outcome.next.inj (h.symm.trans ht')]
  · obtain ⟨t', ht', -, hbusy, hlines, hupc, -⟩ := hI.busy_step_last hb hr hlast
    rw [Host.Outcome.next.inj (h.symm.trans ht')]
    exact ⟨fun _ => ⟨hlines, hupc⟩, by simp [hbusy]⟩

/-- Settles O47, by the three kinds of step. -/
theorem everyStepKeepsTheLinesInStep : Obligations.EveryStepKeepsTheLinesInStep := by
  intro s t hI h
  obtain ⟨-, rfl⟩ | ⟨hr, hb, -⟩ | ⟨-, hb, hidle⟩ := step_cases h
  · exact s.tick.inv_takeReset
  · exact hI.of_microStep hb hr h
  · exact State.Inv.of_idleStep (s := s.tick) hI hb hidle

/-- Settles O46: idle lines and an empty trace. -/
theorem resetStateMeetsTheInvariants : Obligations.ResetStateMeetsTheInvariants :=
  ⟨⟨fun _ => ⟨rfl, rfl⟩, nofun⟩, rfl, rfl, rfl⟩

/-! ## What a step without a reset writes (R20 to R31, R34) -/

/-- A busy block's step is the micro-operation at its position, then the advance (R171). -/
theorem micro_of_step {s t : State} (h : step s = .next t) (hr : s.rstNow = false) (hb : s.busy = true) :
    ∃ u m, s.currentUop = some u ∧ performUop u s.tick = .next m ∧ t = m.advance := by
  obtain ⟨hr', -⟩ | ⟨-, -, hmicro⟩ | ⟨-, hb', -⟩ := step_cases h
  · simp [hr] at hr'
  · exact hmicro
  · simp [hb] at hb'

/-- What no idle step writes: acceptance touches `OP`, `UPC`, `BUSY` and its data register alone (R161). -/
theorem idleStep_frame {s t : State} (h : idleStep s = .next t) (hb : s.busy = false) :
    t.lines = s.lines ∧ t.inited = s.inited ∧ t.ackLast = s.ackLast ∧ t.trace = s.trace ∧ t.params = s.params := by
  obtain ⟨-, rfl⟩ | ⟨_, _, -, ⟨-, rfl⟩ | ⟨_, -, -, rfl⟩ | ⟨_, _, -, -, rfl⟩⟩ := idleStep_cases hb h <;> simp

/-- `INITED` after the advance: set at the end of the list of `INIT` (R30, R175). -/
theorem State.advance_inited (s : State) :
    s.advance.inited = (s.inited || (s.op == 0 && s.upc.toNat == 41)) := by
  by_cases hop : s.op = 0
  · by_cases hlast : s.upc.toNat = 41
    · rw [State.advance_last (by simp [hop, hlast, progLen])]
      simp [hop, hlast]
    · rw [State.advance_inner (by simp [hop, hlast, progLen])]
      simp [hlast]
  · have hne : (s.op == 0#2) = false := beq_false_of_ne hop
    unfold State.advance
    split <;> simp [hne]

@[simp] theorem State.tick_nextLevel (s : State) : s.tick.nextLevel = s.nextLevel := rfl

/-- `ACK_LAST` after a micro-operation: a sample, taken on an input, latches the level of the environment (R31, R107). -/
theorem performUop_ackLast {u : Uop} {s t : State} (h : performUop u s = .next t) :
    t.ackLast = if u = .dioSample then s.nextLevel else s.ackLast := by
  obtain ⟨hu, rfl⟩ | ⟨rfl, hdir, rfl⟩ := performUop_cases h
  · simp [hu]
  · simp [hdir]

/-- Settles O38: no micro-operation writes the three registers, and an idle step writes them by the word it accepts. -/
theorem dataRegistersAreWrittenOnlyByAccept : Obligations.DataRegistersAreWrittenOnlyByAccept := by
  intro s t hr h
  cases hb : s.busy with
  | true =>
    obtain ⟨u, m, -, hm, rfl⟩ := micro_of_step h hr hb
    obtain ⟨hbuf, hcmdb, hop, -⟩ := performUop_frame hm
    simp [hbuf, hcmdb, hop]
  | false =>
    obtain ⟨-, rfl⟩ | ⟨n, rest, hc, hacc⟩ := idleStep_cases (s := s.tick) hb ((step_of_idle hr hb).symm.trans h)
    · simp
    · replace hc : s.cmdIn = n :: rest := hc
      have hword : s.cmdIn.head? = some n := by rw [hc, List.head?_cons]
      have hsome : s.cmdIn ≠ [] := by simp [hc]
      obtain ⟨hd, rfl⟩ | ⟨level, hd, -, rfl⟩ | ⟨value, colon, hd, -, rfl⟩ := hacc
      · exact ⟨nofun, (absurd rfl ·), fun _ => ⟨n, hword, .inl hd⟩, fun _ => ⟨rfl, hsome⟩⟩
      · exact ⟨nofun, (absurd rfl ·), fun _ => ⟨n, hword, .inr ⟨level, hd⟩⟩, fun _ => ⟨rfl, hsome⟩⟩
      · exact ⟨nofun, fun _ => ⟨n, value, colon, hword, hd⟩, (absurd rfl ·), fun _ => ⟨rfl, hsome⟩⟩

/-- Settles O39: the advance of a `Micro` step sets it, and an idle step leaves it. -/
theorem initedIsSetOnlyByTheEndOfInit : Obligations.InitedIsSetOnlyByTheEndOfInit := by
  intro s t hr h
  cases hb : s.busy with
  | true =>
    obtain ⟨u, m, -, hm, rfl⟩ := micro_of_step h hr hb
    obtain ⟨-, -, hop, hupc, -, hinited, -⟩ := performUop_frame hm
    simp [State.advance_inited, hop, hupc, hinited]
  | false =>
    obtain ⟨-, hinited, -⟩ := idleStep_frame ((step_of_idle hr hb).symm.trans h) hb
    simp [hinited]

/-- Settles O40: the micro-operation of a `Micro` step writes it, and an idle step leaves it. -/
theorem ackLastIsWrittenOnlyBySamples : Obligations.AckLastIsWrittenOnlyBySamples := by
  intro s t hr h
  cases hb : s.busy with
  | true =>
    obtain ⟨u, m, hu, hm, rfl⟩ := micro_of_step h hr hb
    simp [performUop_ackLast hm, hu]
  | false =>
    obtain ⟨-, -, hack, -⟩ := idleStep_frame ((step_of_idle hr hb).symm.trans h) hb
    simp [hack]

/-- Settles O41, by the kind of step. -/
theorem linesMoveOnlyByMicroOperations : Obligations.LinesMoveOnlyByMicroOperations := by
  intro s t hr h
  refine ⟨fun hb => ?_, fun hb => ?_⟩
  · obtain ⟨hlines, -⟩ := idleStep_frame ((step_of_idle hr hb).symm.trans h) hb
    exact hlines
  · obtain ⟨u, m, hu, hm, rfl⟩ := micro_of_step h hr hb
    exact ⟨u, hu, m.advance_lines.trans (performUop_lines (s := s.tick) hm)⟩

/-- Settles O42, by the kind of step. -/
theorem traceGrowsByTheMicroOperationPerformed : Obligations.TraceGrowsByTheMicroOperationPerformed := by
  intro s t hr h
  refine ⟨fun hb => ?_, fun hb => ?_⟩
  · obtain ⟨-, -, -, htrace, -⟩ := idleStep_frame ((step_of_idle hr hb).symm.trans h) hb
    exact htrace
  · obtain ⟨u, m, hu, hm, rfl⟩ := micro_of_step h hr hb
    obtain ⟨e, rfl, htrace⟩ := performUop_trace hm
    exact ⟨e, hu, m.advance_trace.trans htrace⟩

/-- Settles O43, by the three kinds of step. -/
theorem parametersNeverChange : Obligations.ParametersNeverChange := by
  intro s t h
  obtain ⟨-, rfl⟩ | ⟨-, -, u, m, -, hm, rfl⟩ | ⟨-, hb, hidle⟩ := step_cases h
  · rfl
  · obtain ⟨-, -, -, -, -, -, hparams, -⟩ := performUop_frame hm
    exact m.advance_params.trans hparams
  · obtain ⟨-, -, -, -, hparams⟩ := idleStep_frame hidle hb
    exact hparams

/-! ## Views of the state: the phase and the ports (R28, R33, R35) -/

/-- Settles O44: between two thresholds the phase and the count are both fixed. -/
theorem phaseCountsTheThresholdsPassed : Obligations.PhaseCountsTheThresholdsPassed := by
  intro s
  refine ⟨fun hb => by simp [State.phase, hb], fun hb hop => ?_, fun hb hop => ?_⟩
  · simp [State.phase, hb, show ¬ s.op = 2#2 from hop]
  · simp only [State.phase, hb, hop]
    generalize s.upc.toNat = n
    obtain h | h | h | h | h | h | h : n < 39 ∨ (39 ≤ n ∧ n < 74) ∨ (74 ≤ n ∧ n < 105) ∨ (105 ≤ n ∧ n < 136) ∨
        (136 ≤ n ∧ n < 167) ∨ (167 ≤ n ∧ n < 198) ∨ 198 ≤ n := by omega
    all_goals simp (disch := omega) [List.filter_cons, Phase.code, if_pos, if_neg]

/-- Settles O45: the data line by its direction, the other ports as they stand. -/
theorem openDrainWiresFollowTheLatches : Obligations.OpenDrainWiresFollowTheLatches := by
  intro s p
  refine ⟨rfl, rfl, ?_, fun hin => ?_, fun hout => ?_, rfl, rfl, rfl, rfl⟩
  · cases hd : s.lines.dioDir <;> simp [State.outputs, Lines.wireDio, Lines.ownDio, hd]
  · simp [State.outputs, hin]
  · simp [Lines.wireDio, Lines.ownDio, hout]

/-! ## The acknowledgment window (R36, R125, R172) -/

/-- The direction that a micro-operation gives the data line, if it gives one (R105, R106). -/
def Uop.turns : Uop → Option Dir
  | .dioDirIn => some .inp
  | .dioDirOut => some .out
  | _ => none

/-- The data line is an input after a micro-operation that makes it one, or that leaves it one. -/
theorem Lines.perform_dioDir_eq_inp (u : Uop) (l : Lines) :
    (l.perform u).dioDir = .inp ↔ u.turns = some .inp ∨ (u.turns = none ∧ l.dioDir = .inp) := by
  cases u <;> simp [Lines.perform, Uop.turns]

/-- A window that opens and closes exactly where a list turns the data line is where the line is an input. -/
theorem dioDir_linesAfter_eq_inp {us : List Uop} {w : Nat → Prop} (h0 : ¬ w 0)
    (hw : ∀ n u, n < us.length → us[n]? = some u → (w (n + 1) ↔ u.turns = some .inp ∨ (u.turns = none ∧ w n))) {n : Nat}
    (hn : n ≤ us.length) : (linesAfter us n).dioDir = .inp ↔ w n := by
  induction n with
  | zero => simp [Lines.idle, h0]
  | succ n ih =>
    have hu : us[n]? = some us[n] := List.getElem?_eq_getElem hn
    rw [linesAfter_succ hu, Lines.perform_dioDir_eq_inp, ih (Nat.le_of_succ_le hn), hw n _ hn hu]

@[simp] theorem startUop_turns (j : Nat) : (startUop j).turns = none := by
  unfold startUop
  split <;> rfl

@[simp] theorem stopUop_turns (j : Nat) : (stopUop j).turns = none := by
  unfold stopUop
  split <;> rfl

theorem busInitUop_turns (j : Nat) : (busInitUop j).turns = if j = 0 then some .out else none := by
  unfold busInitUop
  split <;> simp_all [Uop.turns]

/-- A byte cell turns the data line in its acknowledgment: to an input at 25 and back at 30 (R125). -/
theorem byteUop_turns (b : Byte) {j : Nat} (hj : j < 31) :
    (byteUop b j).turns = if j = 25 then some .inp else if j = 30 then some .out else none := by
  unfold byteUop
  split
  · rw [if_neg (show j ≠ 25 by omega), if_neg (show j ≠ 30 by omega)]
    split
    · rfl
    · split <;> rfl
    · rfl
  · interval_cases j <;> rfl

/-- In a frame the cell's two turns stand four places later, behind the `START` (R126). -/
theorem frameUop_turns (b : Byte) {n : Nat} (hn : n < 39) :
    (frameUop b n).turns = if n = 29 then some .inp else if n = 34 then some .out else none := by
  unfold frameUop
  split
  · rw [startUop_turns, if_neg (by omega), if_neg (by omega)]
  · split
    · rw [byteUop_turns b (by omega)]
      simp only [show n - 4 = 25 ↔ n = 29 by omega, show n - 4 = 30 ↔ n = 34 by omega]
    · rw [stopUop_turns, if_neg (by omega), if_neg (by omega)]

/-- The window of `INIT`: that of its frame, behind `BUS_INIT`, whose own turn finds an output (R36, R172). -/
theorem dioDir_linesAfter_init (p : Params) (cmdb : Byte) (buf : Vector Byte 4) {n : Nat} (hn : n ≤ 42) :
    (linesAfter (prog p cmdb buf 0) n).dioDir = .inp ↔ 33 ≤ n ∧ n ≤ 37 := by
  refine dioDir_linesAfter_eq_inp (w := fun n => 33 ≤ n ∧ n ≤ 37) (by omega) (fun n u hlt hu => ?_)
    (by rwa [length_prog])
  replace hlt : n < 42 := by rwa [length_prog] at hlt
  rw [prog_init, List.getElem?_append, length_busInitUops] at hu
  split at hu
  · rw [getElem?_busInitUops ‹_›] at hu
    cases hu
    rw [busInitUop_turns]
    split <;> simp <;> omega
  · rw [getElem?_cmdFrameUops cmdb (by omega)] at hu
    cases hu
    rw [frameUop_turns cmdb (by omega)]
    split_ifs <;> simp <;> omega

/-- The window of `BRIGHT` (R36, R172). -/
theorem dioDir_linesAfter_bright (p : Params) (cmdb : Byte) (buf : Vector Byte 4) {n : Nat} (hn : n ≤ 39) :
    (linesAfter (prog p cmdb buf 1) n).dioDir = .inp ↔ 30 ≤ n ∧ n ≤ 34 := by
  refine dioDir_linesAfter_eq_inp (w := fun n => 30 ≤ n ∧ n ≤ 34) (by omega) (fun n u hlt hu => ?_)
    (by rwa [length_prog])
  replace hlt : n < 39 := by rwa [length_prog] at hlt
  rw [prog_bright, getElem?_cmdFrameUops cmdb hlt] at hu
  cases hu
  rw [frameUop_turns cmdb hlt]
  split_ifs <;> simp <;> omega

/-- The window of `SHOW`: that of its frame, then one in each of its five cells of 31 micro-operations (R36, R172). -/
theorem dioDir_linesAfter_show (p : Params) (cmdb : Byte) (buf : Vector Byte 4) {n : Nat} (hn : n ≤ 202) :
    (linesAfter (prog p cmdb buf 2) n).dioDir = .inp ↔
      (30 ≤ n ∧ n ≤ 34) ∨ (43 ≤ n ∧ n < 198 ∧ 26 ≤ (n - 43) % 31) := by
  refine dioDir_linesAfter_eq_inp (w := fun n => (30 ≤ n ∧ n ≤ 34) ∨ (43 ≤ n ∧ n < 198 ∧ 26 ≤ (n - 43) % 31))
    (by omega) (fun n u hlt hu => ?_) (by rwa [length_prog])
  replace hlt : n < 202 := by rwa [length_prog] at hlt
  rw [getElem?_prog_show p cmdb buf hlt] at hu
  cases hu
  obtain h | h | h | h | h : n < 39 ∨ (39 ≤ n ∧ n < 43) ∨ (43 ≤ n ∧ n < 74) ∨ (74 ≤ n ∧ n < 198) ∨ 198 ≤ n := by omega
  all_goals
    simp (disch := omega) only [if_pos, if_neg, frameUop_turns, startUop_turns, byteUop_turns, stopUop_turns]
    repeat' split
  all_goals
    simp
    omega

/-- Settles O52: outside an operation the lines are idle, inside one they are those of its list. -/
theorem dataLineIsInputOnlyInTheAckWindow : Obligations.DataLineIsInputOnlyInTheAckWindow := by
  intro s hI
  cases hb : s.busy with
  | false =>
    obtain ⟨hlines, -⟩ := hI.1 hb
    simp [hlines, Lines.idle, State.inAckWindow, hb]
  | true =>
    obtain ⟨hlt, hlines⟩ := hI.2 hb
    rw [hlines, State.prog]
    obtain hop | hop | hop | hop := opcode_cases s.op <;> rw [hop] at hlt ⊢
    · rw [dioDir_linesAfter_init _ _ _ hlt.le]
      simp [State.inAckWindow, hb, hop]
    · rw [dioDir_linesAfter_bright _ _ _ hlt.le]
      simp [State.inAckWindow, hb, hop]
    · rw [dioDir_linesAfter_show _ _ _ hlt.le]
      simp [State.inAckWindow, hb, hop]
      omega
    · exact absurd hlt (Nat.not_lt_zero _)

end Sys2Proof.Machine

/-! # The segment table (R54, R143) -/

namespace Sys2Proof.Machine

open Sys2Proof

/-- A digit indexes the table below its blank entry (R54). -/
@[simp] theorem segDigit_set_blank (seg : SegTable) (blank : Byte) (m : Nat) :
    segDigit (seg.set 10 blank) m = segDigit seg m :=
  have hdigit : m % 10 < 10 := Nat.mod_lt _ (by decide)
  Vector.getElem_set_ne (by decide) (by omega) (by omega)

/-- Settles O21: each of the four bytes looks one digit up. -/
theorem blankEntryIsNeverRead : Obligations.BlankEntryIsNeverRead := by
  intro w seg blank v colon
  simp only [segEncode, segDigit_set_blank]

end Sys2Proof.Machine

/-! # The command word and the bytes on the wire (R70 to R90) -/

namespace Sys2Proof.Machine

open Sys2Proof

/-! ## Format H (R71, R81) -/

/-- Settles O3: the decoder of each opcode reads the fields that its operation uses, and no others. -/
theorem ignoredFieldsHaveNoEffect : Obligations.IgnoredFieldsHaveNoEffect := by
  intro xlen
  refine ⟨fun c a => ?_, fun c a => ?_, rfl, fun level => rfl⟩
  · simp [decodeHost]
  · simp [decodeHost]

/-! ## The control byte (R76, R149) -/

/-- A negative level turns the display off (R149). -/
theorem ctrlOf_of_neg {w : Nat} {level : BitVec w} (h : level.toInt < 0) : ctrlOf level = ctrlByte false 0 :=
  if_pos h

/-- A level of 0 to 7 is sent as it is, with the display on (R149). -/
theorem ctrlOf_of_le_seven {w : Nat} {level : BitVec w} (h0 : 0 ≤ level.toInt) (h7 : level.toInt ≤ 7) :
    ctrlOf level = ctrlByte true (level.extractLsb' 0 3) := by
  have hbyte : ∀ lvl : BitVec 3, 0x88#8 ||| lvl.zeroExtend 8 = ctrlByte true lvl := by decide
  rw [ctrlOf, if_neg h0.not_gt, if_pos h7, hbyte]

/-- A level above 7 is sent as 7 (R149). -/
theorem ctrlOf_of_gt_seven {w : Nat} {level : BitVec w} (h : 7 < level.toInt) : ctrlOf level = ctrlByte true 7 := by
  rw [ctrlOf, if_neg (by omega), if_neg h.not_ge]
  rfl

/-- Settles O23, by the three value classes: only the class of the negative levels turns the display off. -/
theorem ctrlNeverSendsAReservedByte : Obligations.CtrlNeverSendsAReservedByte := by
  intro w level
  obtain hneg | ⟨h0, h7⟩ | hgt : level.toInt < 0 ∨ (0 ≤ level.toInt ∧ level.toInt ≤ 7) ∨ 7 < level.toInt := by omega
  · exact ⟨false, 0, ctrlOf_of_neg hneg, rfl⟩
  · exact ⟨true, _, ctrlOf_of_le_seven h0 h7, rfl⟩
  · exact ⟨true, 7, ctrlOf_of_gt_seven hgt, rfl⟩

/-! ## Lists performed as a whole: line writes, then a cell (R63, R120) -/

/-- `s` after line writes alone: the lines `l`, and the entries `es` added. -/
def State.afterWrites (s : State) (l : Lines) (es : List PinEvent) : State :=
  { s with lines := l, trace := s.trace ++ es }

/-- Line writes before a cell: the cell sets the lines, and its entries come second. -/
@[simp] theorem State.afterWrites_afterCell (s : State) (l l' : Lines) (es : List PinEvent)
    (f : Bool → List PinEvent) : (s.afterWrites l es).afterCell l' f = s.afterCell l' fun a => es ++ f a := by
  simp only [State.afterCell, ← List.append_assoc]
  rfl

/-- Line writes after a cell: the writes set the lines, and their entries come second. -/
@[simp] theorem State.afterCell_afterWrites (s : State) (l l' : Lines) (f : Bool → List PinEvent)
    (es : List PinEvent) : (s.afterCell l f).afterWrites l' es = s.afterCell l' fun a => f a ++ es := by
  simp only [State.afterCell, State.afterWrites, List.append_assoc]

/-- A list without a sample writes the lines one after the other, from every state. -/
theorem performAll_of_no_sample {us : List Uop} (h : .dioSample ∉ us) (s : State) :
    performAll us s =
      .next (s.afterWrites (us.foldl (fun l u => l.perform u) s.lines) (us.map (·.event false))) := by
  induction us generalizing s with
  | nil => simp [State.afterWrites]
  | cons u us ih =>
    obtain ⟨hu, hus⟩ := not_or.mp (mt List.mem_cons.mpr h)
    rw [performAll_cons, performUop_drive (Ne.symm hu), thenDo_next, ih hus]
    simp [State.afterWrites, State.drive]

/-- A sample taken on an input is a cell of one entry (R107). -/
theorem State.sample_eq_afterCell {s : State} (h : s.lines.dioDir = .inp) :
    s.sample = s.afterCell s.lines fun a => [.dioSample a] := by
  simp [State.sample, State.afterCell, State.drawLevel, h]

/-- `START` (R122). -/
theorem performAll_start (s : State) :
    performAll startUops s =
      .next (s.afterWrites { s.lines with clkOut := false, dioOut := false } startEvents) :=
  performAll_of_no_sample (by decide) s

/-- `STOP` (R123). -/
theorem performAll_stop (s : State) :
    performAll stopUops s = .next (s.afterWrites { s.lines with clkOut := true, dioOut := true } stopEvents) :=
  performAll_of_no_sample (by decide) s

/-- `READ_ACK`: line writes round one sample, whatever the lines were (R125). -/
theorem performAll_readAck (s : State) : performAll readAckUops s = .next (s.afterCell Lines.afterByte ackEvents) := by
  have hparts : readAckUops = [.clkLo, .dioDirIn, .dioHi, .clkHi] ++ ([.dioSample] ++ [.clkLo, .dioDirOut]) := rfl
  rw [hparts, performAll_append, performAll_of_no_sample (by decide), thenDo_next, performAll_append, performAll_cons,
    performUop_sample rfl, thenDo_next, performAll_nil, thenDo_next, performAll_of_no_sample (by decide),
    State.sample_eq_afterCell rfl, State.afterCell_afterWrites, State.afterWrites_afterCell]
  rfl

/-- The trace entries of one bit (R124). -/
@[simp] theorem map_event_bitUops (v : Bool) :
    (bitUops v).map (·.event false) = [.clkLo, if v then .dioHi else .dioLo, .clkHi] := by
  cases v <;> rfl

/-- `SEND_BYTE(b)`: eight bits without a sample, then the acknowledgment (R124). -/
theorem performAll_sendByte (b : Byte) (s : State) :
    performAll (sendByteUops b) s = .next (s.afterCell Lines.afterByte (byteEvents b)) := by
  rw [sendByteUops, performAll_append, performAll_of_no_sample (by simp [dioSample_not_mem_bitUops]), thenDo_next,
    performAll_readAck, State.afterWrites_afterCell]
  simp only [List.map_append, map_event_bitUops]
  rfl

/-- `START` and a byte, the opening of a frame (R74, R75). -/
theorem performAll_start_sendByte (b : Byte) (s : State) :
    performAll (startUops ++ sendByteUops b) s =
      .next (s.afterCell Lines.afterByte fun a => startEvents ++ byteEvents b a) := by
  rw [performAll_append, performAll_start, thenDo_next, performAll_sendByte, State.afterWrites_afterCell]

/-- `CMD_FRAME(b)`: the opening of a frame, then `STOP` (R126). -/
theorem performAll_cmdFrame (b : Byte) (s : State) :
    performAll (cmdFrameUops b) s =
      .next (s.afterCell Lines.idle fun a => startEvents ++ byteEvents b a ++ stopEvents) := by
  rw [cmdFrameUops, performAll_append, performAll_start_sendByte, thenDo_next, performAll_stop,
    State.afterCell_afterWrites]
  rfl

/-! ## The wire bytes (R74 to R79) -/

/-- Settles O34: both are the frame F1 of their byte. -/
theorem controlAndDataCommandsAreFrames : Obligations.ControlAndDataCommandsAreFrames :=
  ⟨fun on lvl => performAll_cmdFrame (ctrlByte on lvl), fun s => performAll_cmdFrame s.params.cmdData s⟩

/-- Settles O35: the address byte behind a `START`, a pattern byte as a cell alone. -/
theorem addressOpensAFrameAndPatternsFollow : Obligations.AddressOpensAFrameAndPatternsFollow :=
  ⟨fun s => performAll_start_sendByte s.params.cmdAddr s,
    fun colonDp segments => performAll_sendByte (patternByte colonDp segments)⟩

end Sys2Proof.Machine

/-! # The pin micro-operations (R101 to R107) -/

namespace Sys2Proof.Machine

open Sys2Proof

/-! ## What a micro-operation does, in every state -/

/-- The instruction of a line write performs it, whatever the line registers hold (R100). -/
theorem exec_toInstr_drive {u : Uop} (h : u ≠ .dioSample) (s : State) : exec u.toInstr s = .next (s.drive u) :=
  (exec_toInstr u s).trans (performUop_drive h s)

/-- The sample on an input draws one level, shows it in `ACK_LAST` and enters it in the trace (R107). -/
theorem exec_dioSample_of_inp {s : State} (h : s.lines.dioDir = .inp) :
    exec .dioSample s = .next (s.afterCell s.lines fun a => [.dioSample a]) := by
  rw [← State.sample_eq_afterCell h]
  exact (exec_toInstr .dioSample s).trans (performUop_sample h)

/-- As an input the block leaves the data line alone, whatever `DIO_OUT` holds (R35, R105). -/
theorem Lines.ownDio_inp {l : Lines} (h : l.dioDir = .inp) : l.ownDio = true := by
  simp [Lines.ownDio, h]

/-- As an output the block's contribution is `DIO_OUT` (R35, R106). -/
theorem Lines.ownDio_out {l : Lines} (h : l.dioDir = .out) : l.ownDio = l.dioOut := by
  simp [Lines.ownDio, h]

/-! ## The lines that a micro-operation finds along a list -/

/-- The lines that the sequencer performs a micro-operation on: it pulls data low only on an output, turns the line to an
input while the clock is low, and back from a released line, either the idle one of `BUS_INIT` or that of an acknowledgment;
it samples an input while the clock is high (R104 to R107). -/
def Uop.Fits (u : Uop) (l : Lines) : Prop :=
  match u with
  | .dioLo => l.dioDir = .out
  | .dioDirIn => l.clkOut = false
  | .dioDirOut => l = Lines.idle ∨ l = { clkOut := false, dioOut := true, dioDir := .inp }
  | .dioSample => l.dioDir = .inp ∧ l.clkOut = true
  | .clkLo | .clkHi | .dioHi => True

/-- Each micro-operation of a list performed from lines `l` fits the lines that it finds. -/
def FitsFrom : Lines → List Uop → Prop
  | _, [] => True
  | l, u :: us => u.Fits l ∧ FitsFrom (l.perform u) us

theorem FitsFrom.append {l : Lines} {us vs : List Uop} (hu : FitsFrom l us)
    (hv : FitsFrom (us.foldl (fun l u => l.perform u) l) vs) : FitsFrom l (us ++ vs) := by
  induction us generalizing l with
  | nil => exact hv
  | cons u us ih =>
    obtain ⟨hfits, hus⟩ := hu
    exact ⟨hfits, ih hus hv⟩

/-- The micro-operation at a place of the list fits the lines as the list up to there leaves them. -/
theorem FitsFrom.fits_getElem? {l : Lines} {us : List Uop} {n : Nat} {u : Uop} (h : FitsFrom l us)
    (hu : us[n]? = some u) : u.Fits ((us.take n).foldl (fun l u => l.perform u) l) := by
  induction us generalizing l n with
  | nil => simp at hu
  | cons v us ih =>
    obtain ⟨hv, hus⟩ := h
    cases n with
    | zero =>
      obtain rfl : v = u := by simpa using hu
      exact hv
    | succ n => exact ih hus (by simpa using hu)

/-- A list that fits whatever lines it starts on, the data line an output, and that leaves it an output. -/
def FitsOutput (us : List Uop) : Prop :=
  ∀ l : Lines, l.dioDir = .out → FitsFrom l us ∧ (us.foldl (fun l u => l.perform u) l).dioDir = .out

theorem FitsOutput.append {us vs : List Uop} (hu : FitsOutput us) (hv : FitsOutput vs) : FitsOutput (us ++ vs) :=
  fun l hl => by
    obtain ⟨hfits, hout⟩ := hu l hl
    obtain ⟨hfits', hout'⟩ := hv _ hout
    exact ⟨hfits.append hfits', by rwa [List.foldl_append]⟩

/-- A micro-operation that neither turns nor samples the data line fits an output, and leaves it one. -/
theorem Uop.fits_output {u : Uop} (h : u.turns = none ∧ u ≠ .dioSample) {l : Lines} (hl : l.dioDir = .out) :
    u.Fits l ∧ (l.perform u).dioDir = .out := by
  obtain ⟨hturns, hsample⟩ := h
  cases u with
  | clkLo | clkHi | dioHi => exact ⟨trivial, hl⟩
  | dioLo => exact ⟨hl, hl⟩
  | dioDirOut | dioDirIn => cases hturns
  | dioSample => exact absurd rfl hsample

theorem fitsOutput_of_no_turn {us : List Uop} (h : ∀ u ∈ us, u.turns = none ∧ u ≠ .dioSample) : FitsOutput us := by
  induction us with
  | nil => exact fun l hl => ⟨trivial, hl⟩
  | cons u us ih =>
    intro l hl
    obtain ⟨hu, hus⟩ := List.forall_mem_cons.mp h
    obtain ⟨hfits, hout⟩ := Uop.fits_output hu hl
    obtain ⟨hfits', hout'⟩ := ih hus _ hout
    exact ⟨⟨hfits, hfits'⟩, hout'⟩

theorem fitsOutput_start : FitsOutput startUops := fitsOutput_of_no_turn (by decide)

theorem fitsOutput_stop : FitsOutput stopUops := fitsOutput_of_no_turn (by decide)

theorem fitsOutput_bit (v : Bool) : FitsOutput (bitUops v) := fitsOutput_of_no_turn (by cases v <;> decide)

/-- `READ_ACK` turns the line after its own `CLK_LO`, samples after its `CLK_HI` and turns it back after a `CLK_LO`, the
line released by its `DIO_HI` (R125). -/
theorem fitsOutput_readAck : FitsOutput readAckUops :=
  fun _ _ => ⟨⟨trivial, rfl, trivial, trivial, ⟨rfl, rfl⟩, trivial, .inr rfl, trivial⟩, rfl⟩

theorem fitsOutput_sendByte (b : Byte) : FitsOutput (sendByteUops b) := by
  refine .append ?_ fitsOutput_readAck
  iterate 7 refine .append ?_ (fitsOutput_bit _)
  exact fitsOutput_bit _

theorem fitsOutput_cmdFrame (b : Byte) : FitsOutput (cmdFrameUops b) :=
  (fitsOutput_start.append (fitsOutput_sendByte b)).append fitsOutput_stop

theorem fitsOutput_patternUops (buf : Vector Byte 4) : FitsOutput (patternUops buf) :=
  (((fitsOutput_sendByte _).append (fitsOutput_sendByte _)).append (fitsOutput_sendByte _)).append
    (fitsOutput_sendByte _)

/-- `BUS_INIT` turns the line while the lines are idle (R121, R128). -/
theorem fitsFrom_idle_busInit : FitsFrom Lines.idle busInitUops := ⟨.inl rfl, trivial, trivial, trivial⟩

/-- Every list of the block fits the idle lines that it starts on. -/
theorem fitsFrom_idle_prog (p : Params) (cmdb : Byte) (buf : Vector Byte 4) (op : BitVec 2) :
    FitsFrom Lines.idle (prog p cmdb buf op) := by
  obtain rfl | rfl | rfl | rfl := opcode_cases op
  · exact fitsFrom_idle_busInit.append (fitsOutput_cmdFrame cmdb Lines.idle rfl).1
  · exact (fitsOutput_cmdFrame cmdb Lines.idle rfl).1
  · have hframe2 : FitsOutput (startUops ++ (sendByteUops p.cmdAddr ++ (patternUops buf ++ stopUops))) :=
      fitsOutput_start.append ((fitsOutput_sendByte _).append ((fitsOutput_patternUops buf).append fitsOutput_stop))
    rw [prog_show]
    exact ((fitsOutput_cmdFrame p.cmdData).append hframe2 Lines.idle rfl).1
  · trivial

/-- The micro-operation that an operation in progress comes to fits the lines (R171). -/
theorem State.Inv.fits_currentUop {s : State} (hI : s.Inv) (hb : s.busy = true) {u : Uop}
    (hu : s.currentUop = some u) : u.Fits s.lines := by
  obtain ⟨-, hlines⟩ := hI.2 hb
  rw [hlines]
  exact (fitsFrom_idle_prog ..).fits_getElem? (s.currentUop_eq_getElem?.symm.trans hu)

/-! ## The obligations -/

/-- Settles O25: the wire by the direction, and `fits_currentUop` for the places of `DIO_LO`. -/
theorem dataWritesDriveTheDataLine : Obligations.DataWritesDriveTheDataLine := by
  refine ⟨rfl, rfl, fun s => ⟨?_, ?_, fun hin => ?_, ?_, fun hl => ?_, fun hl => ?_⟩, fun s hI hb hu => ?_⟩
  · exact exec_toInstr_drive (u := .dioHi) nofun s
  · exact exec_toInstr_drive (u := .dioLo) nofun s
  · exact ⟨Lines.ownDio_inp hin, Lines.ownDio_inp hin, Lines.ownDio_inp hin⟩
  · exact Bool.and_false _
  · rw [hl]; rfl
  · rw [hl]; rfl
  · exact hI.fits_currentUop hb hu

/-- Settles O26: the contribution by the direction, and `fits_currentUop` for the places of the two turns. -/
theorem directionWritesTurnTheDataLineRound : Obligations.DirectionWritesTurnTheDataLineRound := by
  refine ⟨rfl, rfl, fun s => ⟨?_, ?_, ?_, ?_⟩, fun s hI hb => ⟨fun hu => ?_, fun hu => ?_⟩⟩
  · exact exec_toInstr_drive (u := .dioDirIn) nofun s
  · exact exec_toInstr_drive (u := .dioDirOut) nofun s
  · exact Lines.ownDio_inp rfl
  · exact Lines.ownDio_out rfl
  · exact hI.fits_currentUop hb hu
  · exact hI.fits_currentUop hb hu

/-- Settles O27: on an input the sample is a cell of one entry, and `fits_currentUop` for the places of the sample. -/
theorem sampleLatchesTheGivenLevel : Obligations.SampleLatchesTheGivenLevel := by
  refine ⟨rfl, fun s b rest hin hlisted => ?_, fun s hin hnone => ?_, fun s hout => ?_, fun s hI hb hu => ?_⟩
  · simp [exec_dioSample_of_inp hin, State.afterCell, State.nextLevel, hlisted]
  · simp [exec_dioSample_of_inp hin, State.afterCell, State.nextLevel, hnone]
  · exact (exec_toInstr .dioSample s).trans (performUop_sample_out hout)
  · exact hI.fits_currentUop hb hu

/-- Settles O24: both are line writes. -/
theorem clockWritesDriveTheClockLine : Obligations.ClockWritesDriveTheClockLine := by
  refine ⟨rfl, rfl, fun s => ⟨?_, ?_, rfl, rfl⟩⟩
  · exact exec_toInstr_drive (u := .clkHi) nofun s
  · exact exec_toInstr_drive (u := .clkLo) nofun s

end Sys2Proof.Machine

/-! # The bus transport: its primitives, its framing, and the acknowledgments (spec/41_bus_transport.md) -/

namespace Sys2Proof.Machine

open Sys2Proof

/-! ## Lists that only pulse the clock (R124, R130) -/

/-- A list that makes `k` clock pulses and no other wire event from any lines with data an output, and that leaves it an
output. -/
def PulsesOutput (k : Nat) (us : List Uop) : Prop :=
  ∀ l : Lines, l.dioDir = .out →
    wireEvents l us = List.replicate k .pulse ∧ (us.foldl (fun l u => l.perform u) l).dioDir = .out

theorem PulsesOutput.append {j k : Nat} {us vs : List Uop} (hu : PulsesOutput j us) (hv : PulsesOutput k vs) :
    PulsesOutput (j + k) (us ++ vs) := fun l hl => by
  obtain ⟨hevents, hout⟩ := hu l hl
  obtain ⟨hevents', hout'⟩ := hv _ hout
  exact ⟨by rw [wireEvents_append, hevents, hevents', List.replicate_append_replicate], by rwa [List.foldl_append]⟩

/-- One bit: its data line moves with the clock low (R124). -/
theorem pulsesOutput_bit (v : Bool) : PulsesOutput 1 (bitUops v) := by
  rintro ⟨clk, dio, dir⟩ rfl
  revert v clk dio
  decide

/-- `READ_ACK` releases the line, and turns it back, with the clock low (R125). -/
theorem pulsesOutput_readAck : PulsesOutput 1 readAckUops := by
  rintro ⟨clk, dio, dir⟩ rfl
  revert clk dio
  decide

/-- A byte cell makes nine clock pulses and nothing else (R124, R130). -/
theorem pulsesOutput_sendByte (b : Byte) : PulsesOutput 9 (sendByteUops b) := by
  refine .append ?_ pulsesOutput_readAck
  iterate 7 refine .append ?_ (pulsesOutput_bit _)
  exact pulsesOutput_bit _

/-! ## The primitives, each from every state (R120 to R126) -/

/-- A list that changes nothing on idle lines keeps them idle all along. -/
theorem linesAfter_eq_idle {us : List Uop} (h : ∀ u ∈ us, Lines.idle.perform u = Lines.idle) (n : Nat) :
    linesAfter us n = Lines.idle :=
  List.foldlRecOn (motive := (· = Lines.idle)) (us.take n) _ rfl fun _ hl u hu => hl ▸ h u (List.mem_of_mem_take hu)

/-- Settles O28: three line writes, each of the idle level. -/
theorem busInitLeavesTheLinesIdle : Obligations.BusInitLeavesTheLinesIdle :=
  ⟨performAll_of_no_sample (us := busInitUops) (by decide), linesAfter_eq_idle (by decide)⟩

/-- Settles O29: the list as a whole, and its wire events on idle lines. -/
theorem startPullsDataThenClock : Obligations.StartPullsDataThenClock :=
  ⟨performAll_start, rfl, rfl⟩

/-- Settles O30: the list as a whole, and its lines and wire events after a byte. -/
theorem stopRaisesClockThenData : Obligations.StopRaisesClockThenData := by
  refine ⟨performAll_stop, fun s t hs ht => ?_, rfl⟩
  rw [performAll_lines ht, hs]
  rfl

/-- Settles O31: line writes round one sample. -/
theorem readAckSamplesAndRestoresTheDirection : Obligations.ReadAckSamplesAndRestoresTheDirection :=
  performAll_readAck

/-- Settles O32: the eight bits and the acknowledgment as one cell, each of them one clock pulse. -/
theorem sendByteSendsEightBitsAndReadsTheAck : Obligations.SendByteSendsEightBitsAndReadsTheAck :=
  fun b s => ⟨performAll_sendByte b s, fun _ => (pulsesOutput_sendByte b _ rfl).1⟩

/-- Settles O33: the list of the frame is the three lists one after the other. -/
theorem cmdFrameIsStartByteStop : Obligations.CmdFrameIsStartByteStop := by
  refine fun b s => ⟨performAll_cmdFrame b s, ?_⟩
  simp only [exec, execCmdFrame, cmdFrameUops, performAll_append, thenDo_assoc]
  rfl

/-! ## Framing events along a list (R129, R130) -/

/-- The start or stop event between the lines before a micro-operation and after it, if there is one. -/
def framingAt (before after : Lines) : Option WireEvent := (wireEvent before after).filter (· ≠ .pulse)

theorem framingAt_eq_start {l l' : Lines} : framingAt l l' = some .start ↔ wireEvent l l' = some .start := by
  simp only [framingAt, Option.filter_eq_some_iff, decide_eq_true_eq]
  exact and_iff_left nofun

theorem framingAt_eq_stop {l l' : Lines} : framingAt l l' = some .stop ↔ wireEvent l l' = some .stop := by
  simp only [framingAt, Option.filter_eq_some_iff, decide_eq_true_eq]
  exact and_iff_left nofun

/-- On lines that stay as they are nothing happens. -/
@[simp] theorem framingAt_self (l : Lines) : framingAt l l = none := by
  cases h : l.ownDio <;> simp [framingAt, wireEvent, h]

/-- For each micro-operation of a list performed from lines `l`, its framing event. -/
def framings : Lines → List Uop → List (Option WireEvent)
  | _, [] => []
  | l, u :: us => framingAt l (l.perform u) :: framings (l.perform u) us

theorem framings_append (l : Lines) (us vs : List Uop) :
    framings l (us ++ vs) = framings l us ++ framings (us.foldl (fun l u => l.perform u) l) vs := by
  induction us generalizing l with
  | nil => rfl
  | cons u us ih => simp [framings, ih]

/-- The framing event at a place of a list, from the lines as the list up to there leaves them. -/
theorem framings_getElem? {l : Lines} {us : List Uop} {n : Nat} {u : Uop} (h : us[n]? = some u) :
    (framings l us)[n]? =
      some (framingAt ((us.take n).foldl (fun l u => l.perform u) l)
        (((us.take n).foldl (fun l u => l.perform u) l).perform u)) := by
  induction us generalizing l n with
  | nil => simp at h
  | cons v us ih =>
    cases n with
    | zero =>
      obtain rfl : v = u := by simpa using h
      rfl
    | succ n => exact ih (by simpa using h)

/-- A list whose only wire events are clock pulses has no framing event at any place. -/
theorem framings_of_pulses {l : Lines} {us : List Uop} (h : ∀ e ∈ wireEvents l us, e = .pulse) :
    framings l us = List.replicate us.length none := by
  induction us generalizing l with
  | nil => rfl
  | cons u us ih =>
    obtain ⟨hu, hus⟩ := List.forall_mem_append.mp h
    have hnone : framingAt l (l.perform u) = none :=
      Option.filter_eq_none_iff.mpr fun e he => by simp [hu e (Option.mem_toList.mpr he)]
    rw [framings, hnone, ih hus, List.length_cons, List.replicate_succ]

/-- A byte cell has no framing event: no bit pattern makes one (R124). -/
theorem framings_sendByte (b : Byte) {l : Lines} (hl : l.dioDir = .out) :
    framings l (sendByteUops b) = List.replicate 31 none :=
  framings_of_pulses fun _ he => List.eq_of_mem_replicate ((pulsesOutput_sendByte b l hl).1 ▸ he)

/-- The framing event at a place of an operation: a start event at the third micro-operation of each `START`, a stop
event at the fourth of each `STOP` (R130, R172). -/
def framingPlace (op : BitVec 2) (n : Nat) : Option WireEvent :=
  match op.toNat with
  | 0 => if n = 5 then some .start else if n = 41 then some .stop else none
  | 1 => if n = 2 then some .start else if n = 38 then some .stop else none
  | 2 => if n = 2 ∨ n = 41 then some .start else if n = 38 ∨ n = 201 then some .stop else none
  | _ => none

/-- The frame of a byte has the framing events of `BRIGHT`, whose list it is (R126, R164). -/
theorem framings_cmdFrame (b : Byte) :
    framings Lines.idle (cmdFrameUops b) = (List.range 39).map (framingPlace 1) := by
  rw [cmdFrameUops, framings_append, framings_append, framings_sendByte b rfl, List.foldl_append, foldl_perform_sendByte]
  rfl

/-- Every list has its framing events at the places of its `START`s and `STOP`s, whatever bytes it sends. -/
theorem framings_prog (p : Params) (cmdb : Byte) (buf : Vector Byte 4) (op : BitVec 2) :
    framings Lines.idle (prog p cmdb buf op) = (List.range (progLen op)).map (framingPlace op) := by
  obtain rfl | rfl | rfl | rfl := opcode_cases op
  · rw [prog_init, framings_append, show busInitUops.foldl (fun l u => l.perform u) Lines.idle = Lines.idle from rfl,
      framings_cmdFrame]
    rfl
  · exact framings_cmdFrame cmdb
  · rw [prog_show]
    simp only [patternUops, framings_append, framings_cmdFrame, foldl_perform_cmdFrame, foldl_perform_sendByte,
      List.foldl_append]
    iterate 5 rw [framings_sendByte _ rfl]
    rfl
  · rfl

/-- The framing event of a step of an operation in progress is that of its place (R130). -/
theorem State.Inv.framingAt_perform {s : State} (hI : s.Inv) (hb : s.busy = true) {u : Uop}
    (hu : s.currentUop = some u) : framingAt s.lines (s.lines.perform u) = framingPlace s.op s.upc.toNat := by
  obtain ⟨hlt, hlines⟩ := hI.2 hb
  have hat := framings_getElem? (l := Lines.idle) (s.currentUop_eq_getElem?.symm.trans hu)
  rw [State.prog, framings_prog, List.getElem?_map, List.getElem?_range hlt] at hat
  rw [hlines]
  exact (Option.some.inj hat).symm

/-! ## The places of the framing events (R36, R130) -/

theorem State.atStartThird_iff {s : State} (hb : s.busy = true) :
    s.atStartThird = true ↔ framingPlace s.op s.upc.toNat = some .start := by
  simp only [State.atStartThird, hb, framingPlace]
  generalize s.upc.toNat = n
  obtain h | h | h | h := opcode_cases s.op <;> simp [h, or_iff_not_imp_left]

theorem State.atStopFourth_iff {s : State} (hb : s.busy = true) :
    s.atStopFourth = true ↔ framingPlace s.op s.upc.toNat = some .stop := by
  simp only [State.atStopFourth, hb, framingPlace]
  generalize s.upc.toNat = n
  obtain h | h | h | h := opcode_cases s.op <;> simp [h]
  all_goals
    split_ifs <;> simp <;> omega

/-- A micro-operation moves one line: where the data level changes without a framing event, the clock is low and stays
low (R36, R129). -/
theorem clkOut_low_of_ownDio_ne {l : Lines} {u : Uop} (hdata : l.ownDio ≠ (l.perform u).ownDio)
    (hstart : wireEvent l (l.perform u) ≠ some .start) (hstop : wireEvent l (l.perform u) ≠ some .stop) :
    l.clkOut = false ∧ (l.perform u).clkOut = false := by
  have hsame : (l.perform u).clkOut = l.clkOut := by
    cases u with
    | clkLo | clkHi => exact absurd rfl hdata
    | dioLo | dioHi | dioDirOut | dioDirIn | dioSample => rfl
  rw [hsame, and_self]
  by_contra hclk
  cases h : l.ownDio <;> simp_all [wireEvent]

/-- Settles O51: the framing event of a step is that of its place, and an idle step leaves the lines alone. -/
theorem startAndStopEventsOnlyAtTheirPlaces : Obligations.StartAndStopEventsOnlyAtTheirPlaces := by
  intro s t hI hr h
  cases hb : s.busy with
  | false =>
    obtain ⟨hlines, -⟩ := idleStep_frame ((step_of_idle hr hb).symm.trans h) hb
    rw [hlines, ← framingAt_eq_start, ← framingAt_eq_stop]
    simp [State.atStartThird, State.atStopFourth, hb]
  | true =>
    obtain ⟨u, m, hu, hm, rfl⟩ := micro_of_step h hr hb
    have hstart : wireEvent s.lines (s.lines.perform u) = some .start ↔ s.atStartThird = true := by
      rw [← framingAt_eq_start, hI.framingAt_perform hb hu, State.atStartThird_iff hb]
    have hstop : wireEvent s.lines (s.lines.perform u) = some .stop ↔ s.atStopFourth = true := by
      rw [← framingAt_eq_stop, hI.framingAt_perform hb hu, State.atStopFourth_iff hb]
    rw [State.advance_lines, performUop_lines hm, State.tick_lines]
    exact ⟨hstart, hstop, fun hdata hns hnt =>
      clkOut_low_of_ownDio_ne hdata (by simp [hstart, hns]) (by simp [hstop, hnt])⟩

/-! ## Alternation along a trace (R131, R132) -/

/-- Whether a frame is open after a wire event, `opened` if it was open before. -/
def openedBy (opened : Bool) : WireEvent → Bool
  | .start => true
  | .stop => false
  | .pulse => opened

/-- Whether a frame is open after a list of wire events. -/
def openAfter (opened : Bool) (es : List WireEvent) : Bool := es.foldl openedBy opened

theorem openAfter_append (opened : Bool) (es fs : List WireEvent) :
    openAfter opened (es ++ fs) = openAfter (openAfter opened es) fs := List.foldl_append

theorem alternates_append (opened : Bool) (es fs : List WireEvent) :
    alternates opened (es ++ fs) = (alternates opened es && alternates (openAfter opened es) fs) := by
  induction es generalizing opened with
  | nil => rfl
  | cons e es ih => cases opened <;> cases e <;> simp [alternates, openAfter, openedBy, ih]

/-- Alternating events are balanced, but for a start still open before or after them. -/
theorem count_start_of_alternates {opened : Bool} {es : List WireEvent} (h : alternates opened es = true) :
    es.count .start + opened.toNat = es.count .stop + (openAfter opened es).toNat := by
  fun_induction alternates opened es with
  | case1 => rfl
  | case2 es ih => simpa [openAfter, openedBy, Nat.add_right_comm] using ih h
  | case3 es ih => simpa [openAfter, openedBy, Nat.add_right_comm] using ih h
  | case4 => cases h

/-- The monitor's acknowledgment clause keeps a frame as open as it is (R132). -/
@[simp] theorem Monitor.onSample_cur_isSome (m : Monitor) (e : PinEvent) : (m.onSample e).cur.isSome = m.cur.isSome := by
  unfold Monitor.onSample
  split <;> simp [*]

/-- The monitor opens a frame at a start event and closes it at a stop event (R132). -/
theorem Monitor.next_cur_isSome (m : Monitor) (e : PinEvent) :
    (m.next e).cur.isSome = openAfter m.cur.isSome (framingAt m.lines (m.lines.perform e.uop)).toList := by
  simp only [Monitor.next, framingAt, Monitor.onSample_cur_isSome]
  cases wireEvent m.lines (m.lines.perform e.uop) with
  | none => rfl
  | some ev => cases ev <;> cases h : m.cur <;> simp [Monitor.onEvent, Option.filter, openAfter, openedBy, h]

@[simp] theorem Monitor.next_lines (m : Monitor) (e : PinEvent) : (m.next e).lines = m.lines.perform e.uop := rfl

/-- The monitor replays the lines (R132). -/
theorem scan_lines (trace : List PinEvent) :
    (scan trace).lines = (trace.map PinEvent.uop).foldl (fun l u => l.perform u) Lines.idle := by
  induction trace using List.reverseRecOn with
  | nil => rfl
  | append_singleton trace e ih => simp [scan_append_one, ih]

/-- One more entry adds its framing event. -/
theorem traceFraming_append_one (trace : List PinEvent) (e : PinEvent) :
    traceFraming (trace ++ [e]) =
      traceFraming trace ++ (framingAt (scan trace).lines ((scan trace).lines.perform e.uop)).toList := by
  rw [scan_lines]
  simp [traceFraming, framing, wireEvents_append, wireEvents, framingAt, Option.toList_filter]

/-- The monitor is inside a frame exactly where the last framing event is a start (R131, R132). -/
theorem scan_cur_isSome (trace : List PinEvent) : (scan trace).cur.isSome = openAfter false (traceFraming trace) := by
  induction trace using List.reverseRecOn with
  | nil => rfl
  | append_singleton trace e ih =>
    rw [scan_append_one, traceFraming_append_one, Monitor.next_cur_isSome, ih, openAfter_append]

/-- Settles O49: no frame is open on an idle block, so the alternating events are balanced and do not end on a start. -/
theorem idleTraceIsBalanced : Obligations.IdleTraceIsBalanced := by
  intro s hF hb
  obtain ⟨-, hopen, halt⟩ := hF
  have hclosed : openAfter false (traceFraming s.trace) = false := by
    rw [← scan_cur_isSome, hopen, State.frameOpen, hb, Bool.false_and]
  refine ⟨by simpa [hclosed] using count_start_of_alternates halt, fun hlast => ?_⟩
  obtain ⟨es, hes⟩ := List.getLast?_eq_some_iff.mp hlast
  simp [hes, openAfter, openedBy] at hclosed

/-- Whether a frame is open at a place of an operation: `State.frameOpen` of a busy block. -/
def frameOpenAt (op : BitVec 2) (n : Nat) : Bool :=
  match op.toNat with
  | 0 => 6 ≤ n
  | 1 => 3 ≤ n
  | _ => (3 ≤ n && n < 39) || 42 ≤ n

theorem State.frameOpen_eq (s : State) : s.frameOpen = (s.busy && frameOpenAt s.op s.upc.toNat) := rfl

theorem frameOpenAt_zero (op : BitVec 2) : frameOpenAt op 0 = false := by
  revert op; decide

/-- At each place a start event finds no frame open and a stop event finds one, and a frame is open at the next place as
the event leaves it; none is at the end of the list. -/
theorem framingPlace_follows_frameOpenAt {op : BitVec 2} {n : Nat} (hn : n < progLen op) :
    alternates (frameOpenAt op n) (framingPlace op n).toList = true ∧
      openAfter (frameOpenAt op n) (framingPlace op n).toList =
        (decide (n + 1 ≠ progLen op) && frameOpenAt op (n + 1)) := by
  obtain rfl | rfl | rfl | rfl := opcode_cases op
  · obtain rfl | rfl | ⟨hstart, hstop⟩ : n = 5 ∨ n = 41 ∨ n ≠ 5 ∧ n ≠ 41 := by omega
    · decide
    · decide
    · simp [frameOpenAt, framingPlace, hstart, hstop, progLen, alternates, openAfter]
      omega
  · obtain rfl | rfl | ⟨hstart, hstop⟩ : n = 2 ∨ n = 38 ∨ n ≠ 2 ∧ n ≠ 38 := by omega
    · decide
    · decide
    · simp [frameOpenAt, framingPlace, hstart, hstop, progLen, alternates, openAfter]
      omega
  · obtain rfl | rfl | rfl | rfl | ⟨hstart, hstart', hstop, hstop'⟩ :
      n = 2 ∨ n = 38 ∨ n = 41 ∨ n = 201 ∨ n ≠ 2 ∧ n ≠ 41 ∧ n ≠ 38 ∧ n ≠ 201 := by omega
    · decide
    · decide
    · decide
    · decide
    · rw [Bool.eq_iff_iff (a := openAfter _ _)]
      simp [frameOpenAt, framingPlace, hstart, hstart', hstop, hstop', progLen, alternates, openAfter]
      omega
  · exact absurd hn (Nat.not_lt_zero n)

/-- Reset empties the trace and leaves the block idle (R220). -/
theorem State.framed_takeReset (s : State) : s.takeReset.Framed := ⟨rfl, rfl, rfl⟩

/-- An idle step leaves the trace and the lines alone, and no frame is open at the first place of a list (R161). -/
theorem State.Framed.of_idleStep {s t : State} (hF : s.Framed) (hb : s.busy = false) (h : idleStep s = .next t) :
    t.Framed := by
  obtain ⟨hlines, hopen, halt⟩ := hF
  obtain ⟨hsame, -, -, htrace, -⟩ := idleStep_frame h hb
  refine ⟨by rw [htrace, hsame, hlines], ?_, by rwa [htrace]⟩
  have hclosed : t.frameOpen = false := by
    obtain ⟨-, rfl⟩ | ⟨n, rest, hc, -⟩ := idleStep_cases hb h
    · rw [State.frameOpen_eq, hb, Bool.false_and]
    · obtain ⟨-, hupc, -⟩ := idleStep_accepts hb hc h
      rw [State.frameOpen_eq, hupc]
      simp [frameOpenAt_zero]
  rw [htrace, hopen, hclosed, State.frameOpen_eq, hb, Bool.false_and]

/-- Whether a frame is open after the advance (R171). -/
theorem State.advance_frameOpen {s : State} (hb : s.busy = true) (hlt : s.upc.toNat < progLen s.op) :
    s.advance.frameOpen = (decide (s.upc.toNat + 1 ≠ progLen s.op) && frameOpenAt s.op (s.upc.toNat + 1)) := by
  by_cases hlast : s.upc.toNat + 1 = progLen s.op
  · simp [State.advance_last hlast, State.frameOpen_eq, hlast]
  · have hle := progLen_le s.op
    have hpos : (s.upc + 1).toNat = s.upc.toNat + 1 := by bv_omega
    rw [State.advance_inner hlast, State.frameOpen_eq, hpos, hb]
    simp [hlast]

/-- A step of an operation in progress enters the framing event of its place (R130, R131). -/
theorem State.Framed.of_microStep {s t : State} (hI : s.Inv) (hF : s.Framed) (hb : s.busy = true)
    (hr : s.rstNow = false) (h : step s = .next t) : t.Framed := by
  obtain ⟨hlines, hopen, halt⟩ := hF
  obtain ⟨hlt, -⟩ := hI.2 hb
  obtain ⟨u, m, hu, hm, rfl⟩ := micro_of_step h hr hb
  obtain ⟨-, -, hop, hupc, hbusy, -⟩ := performUop_frame hm
  obtain ⟨e, rfl, htrace⟩ := performUop_trace hm
  obtain ⟨haltplace, hopenplace⟩ := framingPlace_follows_frameOpenAt hlt
  replace htrace : m.trace = s.trace ++ [e] := htrace
  rw [State.frameOpen_eq, hb, Bool.true_and, scan_cur_isSome] at hopen
  have hframing : traceFraming m.trace = traceFraming s.trace ++ (framingPlace s.op s.upc.toNat).toList := by
    rw [htrace, traceFraming_append_one, hlines, hI.framingAt_perform hb hu]
  refine ⟨?_, ?_, ?_⟩
  · rw [State.advance_trace, State.advance_lines, htrace, scan_append_one, Monitor.next_lines, hlines,
      performUop_lines hm, State.tick_lines]
  · rw [State.advance_trace, scan_cur_isSome, hframing, openAfter_append, hopen, hopenplace,
      State.advance_frameOpen (hbusy.trans hb) (by rwa [hop, hupc]), hop, hupc]
    rfl
  · rw [State.advance_trace, hframing, alternates_append, halt, hopen, haltplace, Bool.and_self]

/-- Settles O48, by the three kinds of step. -/
theorem everyStepKeepsTheTraceFramed : Obligations.EveryStepKeepsTheTraceFramed := by
  intro s t hI hF h
  obtain ⟨-, rfl⟩ | ⟨hr, hb, -⟩ | ⟨-, hb, hidle⟩ := step_cases h
  · exact s.tick.framed_takeReset
  · exact hF.of_microStep hI hb hr h
  · exact State.Framed.of_idleStep (s := s.tick) hF hb hidle

/-! ## Acknowledgments and the run (R127, R191) -/

/-- `s` had the environment answered its samples otherwise: other levels in store, another `ACK_LAST`, another count of
free values drawn, and another trace. -/
def State.answered (s : State) (levels : List Bool) (ack : Bool) (idx : Nat) (trace : List PinEvent) : State :=
  { s with dioIn := levels, ackLast := ack, freeIdx := idx, trace := trace }

/-- `s'` differs from `s` in the environment's answers alone, and has performed the same micro-operations. -/
def State.SameButAnswers (s s' : State) : Prop :=
  ∃ levels ack idx trace, trace.map PinEvent.uop = s.trace.map PinEvent.uop ∧ s' = s.answered levels ack idx trace

/-- The environment's answers reach none of the registers of R127. -/
theorem State.SameButAnswers.apartFromAck_eq {s s' : State} (h : s.SameButAnswers s') :
    s'.apartFromAck = s.apartFromAck := by
  obtain ⟨levels, ack, idx, trace, htrace, rfl⟩ := h
  simp only [State.apartFromAck, State.answered, htrace]

/-- A micro-operation goes through whatever is answered: only the sample reads an answer, and its place in `ACK_LAST` and
in the trace is among what may differ (R107). -/
theorem State.SameButAnswers.performUop {s s' m : State} {u : Uop} (h : s.SameButAnswers s')
    (hm : performUop u s = .next m) : ∃ m', performUop u s' = .next m' ∧ m.SameButAnswers m' := by
  obtain ⟨levels, ack, idx, trace, htrace, rfl⟩ := h
  obtain ⟨hu, rfl⟩ | ⟨rfl, hin, rfl⟩ := performUop_cases hm
  · exact ⟨_, performUop_drive hu _, levels, ack, idx, trace ++ [u.event false], by simp [htrace], rfl⟩
  · exact ⟨_, performUop_sample hin, _, _, _, _, by simp [htrace, State.answered, PinEvent.uop], rfl⟩

/-- The advance reads the position and the operation alone (R171). -/
theorem State.SameButAnswers.advance {s s' : State} (h : s.SameButAnswers s') : s.advance.SameButAnswers s'.advance := by
  obtain ⟨levels, ack, idx, trace, htrace, rfl⟩ := h
  refine ⟨levels, ack, idx, trace, by rw [htrace, State.advance_trace], ?_⟩
  by_cases hlast : s.upc.toNat + 1 = progLen s.op
  · rw [State.advance_last hlast]
    exact State.advance_last hlast
  · rw [State.advance_inner hlast]
    exact State.advance_inner hlast

/-- Acceptance reads the word, the parameters and `INITED` alone (R161, R167). -/
theorem State.SameButAnswers.idleStep {s s' t : State} (h : s.SameButAnswers s') (hb : s.busy = false)
    (ht : idleStep s = .next t) : ∃ t', idleStep s' = .next t' ∧ t.SameButAnswers t' := by
  obtain ⟨levels, ack, idx, trace, htrace, rfl⟩ := h
  refine ⟨t.answered levels ack idx trace, ?_, levels, ack, idx, trace, ?_, rfl⟩
  · obtain ⟨hc, rfl⟩ | ⟨n, rest, hc, ⟨hd, rfl⟩ | ⟨level, hd, hi, rfl⟩ | ⟨value, colon, hd, hi, rfl⟩⟩ :=
      idleStep_cases hb ht
    · simp [Machine.idleStep, State.answered, hc]
    · simp [Machine.idleStep, State.answered, hc, hd, exec, execInit, hb, State.accept]
    · simp [Machine.idleStep, State.answered, hc, hd, exec, execBright, hb, hi, State.accept]
    · simp [Machine.idleStep, State.answered, hc, hd, exec, execShow, hb, hi, State.accept]
  · obtain ⟨-, -, -, hsame, -⟩ := idleStep_frame ht hb
    rw [hsame, htrace]

theorem State.SameButAnswers.tick {s s' : State} (h : s.SameButAnswers s') : s.tick.SameButAnswers s'.tick := by
  obtain ⟨levels, ack, idx, trace, htrace, rfl⟩ := h
  exact ⟨levels, ack, idx, trace, htrace, rfl⟩

/-- A step without a reset goes through whatever is answered, with the same micro-operation or word (R127). -/
theorem State.SameButAnswers.step {s s' t : State} (h : s.SameButAnswers s') (hr : s.rstNow = false)
    (ht : step s = .next t) : ∃ t', step s' = .next t' ∧ t.SameButAnswers t' := by
  have htick := h.tick
  obtain ⟨levels, ack, idx, trace, -, rfl⟩ := h
  cases hb : s.busy with
  | true =>
    obtain ⟨u, m, hu, hm, rfl⟩ := micro_of_step ht hr hb
    obtain ⟨m', hm', hsame⟩ := htick.performUop hm
    refine ⟨m'.advance, ?_, hsame.advance⟩
    rw [step_of_busy (s := s.answered levels ack idx trace) hr hb hu, hm', thenDo_next]
  | false =>
    obtain ⟨t', ht', hsame⟩ := htick.idleStep hb ((step_of_idle hr hb).symm.trans ht)
    exact ⟨t', (step_of_idle (s := s.answered levels ack idx trace) hr hb).trans ht', hsame⟩

/-- Every step takes one level of `rst` (R223). -/
theorem step_rstIn {s t : State} (h : step s = .next t) : t.rstIn = s.rstIn.tail := by
  obtain ⟨-, rfl⟩ | ⟨-, -, u, m, -, hm, rfl⟩ | ⟨-, hb, hidle⟩ := step_cases h
  · rfl
  · obtain ⟨-, -, -, -, -, -, -, -, hrst⟩ := performUop_frame hm
    exact m.advance_rstIn.trans hrst
  · obtain ⟨-, rfl⟩ | ⟨_, _, -, ⟨-, rfl⟩ | ⟨_, -, -, rfl⟩ | ⟨_, _, -, -, rfl⟩⟩ :=
      idleStep_cases (s := s.tick) hb hidle <;> rfl

/-- No reset in store for one step more: none at the next step, and none in store after it. -/
theorem State.NoReset.step {s t : State} {n : Nat} (hr : s.NoReset (n + 1)) (h : step s = .next t) :
    s.rstNow = false ∧ t.NoReset n := by
  refine ⟨(State.RanFor.refl s).rstNow_eq_false hr (Nat.succ_pos n), fun b hb => hr b ?_⟩
  rw [step_rstIn h, ← List.drop_one, List.take_drop, Nat.add_comm] at hb
  exact List.mem_of_mem_drop hb

/-- A run without a reset goes through whatever is answered (R127). -/
theorem State.SameButAnswers.steps {n : Nat} {s s' t : State} (h : s.SameButAnswers s') (hr : s.NoReset n)
    (ht : steps n s = .next t) : ∃ t', steps n s' = .next t' ∧ t.SameButAnswers t' := by
  induction n generalizing s s' with
  | zero =>
    obtain rfl := Host.Outcome.next.inj ht
    exact ⟨s', rfl, h⟩
  | succ n ih =>
    obtain ⟨m, hm, hrest⟩ := thenDo_eq_next.mp ht
    obtain ⟨hnow, hlater⟩ := hr.step hm
    obtain ⟨m', hm', hsame⟩ := h.step hnow hm
    obtain ⟨t', ht', hsame'⟩ := ih hsame hlater hrest
    exact ⟨t', by rw [steps_succ, hm', thenDo_next, ht'], hsame'⟩

/-- Settles O53: the two runs keep step with each other, differing in the environment's answers alone. -/
theorem acknowledgmentsNeverAlterTheRun : Obligations.AcknowledgmentsNeverAlterTheRun := by
  intro n s t levels ack hr ht
  obtain ⟨t', ht', hsame⟩ := State.SameButAnswers.steps ⟨levels, ack, s.freeIdx, s.trace, rfl, rfl⟩ hr ht
  exact ⟨t', ht', hsame.apartFromAck_eq⟩

end Sys2Proof.Machine

/-! # The decimal encoder and the command composer (R144 to R149) -/

namespace Sys2Proof.Machine

open Sys2Proof

/-! ## The four digits (R144 to R146) -/

/-- The four rounds of division by ten, as quotients of the absolute value by powers of ten (R145, R148). -/
theorem segEncode_eq {w : Nat} (seg : SegTable) (v : BitVec w) (colon : Bool) :
    segEncode seg v colon =
      #v[segDigit seg (v.toInt.natAbs / 1000), withColon colon (segDigit seg (v.toInt.natAbs / 100)),
        segDigit seg (v.toInt.natAbs / 10), segDigit seg v.toInt.natAbs] := by
  simp only [segEncode, magnitude_toNat, Nat.div_div_eq_div_mul]

/-- Settles O18: without the colon each byte is the lookup of its digit. -/
theorem encodeShowsTheLowFourDigits : Obligations.EncodeShowsTheLowFourDigits :=
  fun _ seg v => ⟨by omega, by omega, by omega, by omega, segEncode_eq seg v false⟩

/-! ## The sign and the dropped digits (R148) -/

/-- The most negative value is its own negation, so the absolute values agree there too (R144). -/
theorem natAbs_toInt_neg {w : Nat} (v : BitVec w) : (-v).toInt.natAbs = v.toInt.natAbs := by
  by_cases hmin : v = BitVec.intMin w
  · rw [hmin, BitVec.neg_intMin]
  · rw [BitVec.toInt_neg_of_ne_intMin hmin, Int.natAbs_neg]

/-- The encoder sees its operand's absolute value modulo 10000, across widths too (R148). -/
theorem segEncode_congr {w w' : Nat} (seg : SegTable) {v : BitVec w} {v' : BitVec w'} (colon : Bool)
    (h : v.toInt.natAbs % 10000 = v'.toInt.natAbs % 10000) : segEncode seg v colon = segEncode seg v' colon := by
  rw [segEncode_eq, segEncode_eq]
  generalize v.toInt.natAbs = m at h
  generalize v'.toInt.natAbs = m' at h
  have hthousands : m / 1000 % 10 = m' / 1000 % 10 := by omega
  have hhundreds : m / 100 % 10 = m' / 100 % 10 := by omega
  have htens : m / 10 % 10 = m' / 10 % 10 := by omega
  have hunits : m % 10 = m' % 10 := by omega
  rw [segDigit_congr seg hthousands, segDigit_congr seg hhundreds, segDigit_congr seg htens, segDigit_congr seg hunits]

/-- Settles O19: a value and its negation have one absolute value, and the rest is congruence modulo 10000. -/
theorem encodeSeesTheMagnitudeModuloTenThousand : Obligations.EncodeSeesTheMagnitudeModuloTenThousand :=
  ⟨fun _ seg v colon => segEncode_congr seg colon (by rw [natAbs_toInt_neg]),
    fun _ _ seg _ _ colon => segEncode_congr seg colon⟩

/-! ## The colon (R141, R147) -/

/-- A digit's pattern leaves the colon's bit clear (R141). -/
theorem getLsbD_segDigit_seven {seg : SegTable} (h : seg.Ok) (m : Nat) : (segDigit seg m).getLsbD 7 = false :=
  have ⟨hdigits, _⟩ := h
  hdigits ⟨m % 10, Nat.mod_lt m (by decide)⟩

/-- On a pattern with the top bit clear, setting that bit adds its weight (R147, R148). -/
theorem toNat_withColon_true {pat : Byte} (h : pat.getLsbD 7 = false) :
    (withColon true pat).toNat = pat.toNat + 0x80 := by
  revert pat
  decide

/-- Settles O20: the colon stands in byte 1 alone, on a digit's pattern. -/
theorem colonSetsTheTopBitOfByteOne : Obligations.ColonSetsTheTopBitOfByteOne :=
  fun _ _ _ => ⟨rfl, rfl, rfl, rfl, fun hok => toNat_withColon_true (getLsbD_segDigit_seven hok _)⟩

/-! ## The level (R149) -/

/-- A non-negative signed value is the unsigned one. -/
theorem toNat_eq_of_toInt_eq {w n : Nat} {x : BitVec w} (h : x.toInt = n) : x.toNat = n := by
  have hlow : 2 * x.toNat < 2 ^ w := BitVec.toInt_pos_iff.mp (by omega)
  rw [BitVec.toInt_eq_toNat_of_lt hlow] at h
  exact_mod_cast h

/-- A level of 0 to 7 is sent in the low bits of the control byte (R149). -/
theorem ctrlOf_of_eq_natCast {w n : Nat} {level : BitVec w} (hn : n ≤ 7) (h : level.toInt = n) :
    ctrlOf level = 0x88 ||| BitVec.ofNat 8 n := by
  have hbyte : ∀ n ≤ 7, ctrlByte true (BitVec.ofNat 3 n) = 0x88 ||| BitVec.ofNat 8 n := by decide
  have hlvl : level.extractLsb' 0 3 = BitVec.ofNat 3 n := by
    rw [BitVec.extractLsb', toNat_eq_of_toInt_eq h, Nat.shiftRight_zero]
  rw [ctrlOf_of_le_seven (by omega) (by omega), hlvl, hbyte n hn]

/-- Settles O22: one lemma for each of the three classes. -/
theorem ctrlHasThreeValueClasses : Obligations.CtrlHasThreeValueClasses :=
  fun _ _ _ => ⟨ctrlOf_of_neg, fun _ => ctrlOf_of_eq_natCast, ctrlOf_of_gt_seven⟩

end Sys2Proof.Machine

/-! # The display driver: acceptance, the list of an operation as a whole, and the frames it sends
(spec/43_display_driver.md) -/

namespace Sys2Proof.Machine

open Sys2Proof

/-! ## The lists and their steps (R171, R172) -/

theorem progLen_init : progLen 0 = 42 := rfl
theorem progLen_bright : progLen 1 = 39 := rfl
theorem progLen_show : progLen 2 = 202 := rfl

/-- Settles O36: the closed form is `uopAt_eq_getElem?`, and each list has the length of its opcode. -/
theorem closedFormIsTheFlattenedList : Obligations.ClosedFormIsTheFlattenedList :=
  fun p cmdb buf => ⟨uopAt_eq_getElem? p cmdb buf, length_prog p cmdb buf 0, length_prog p cmdb buf 1,
    length_prog p cmdb buf 2⟩

/-- Settles O50: a reset step goes through, and so does the micro-operation of the position. -/
theorem busyBlockAlwaysSteps : Obligations.BusyBlockAlwaysSteps := by
  intro s hI hb
  cases hr : s.rstNow with
  | true => exact ⟨_, step_of_reset hr⟩
  | false =>
    obtain ⟨m, hstep, -⟩ := hI.busy_step hb hr
    exact ⟨_, hstep⟩

/-! ## Acceptance (R161, R166, R167) -/

/-- `INIT` is accepted on every idle block (R163, R167). -/
theorem exec_init_of_idle {s : State} (hb : s.busy = false) :
    exec .init s = .next { s.accept 0 with cmdb := ctrlOf (operand s.params s.params.initLevel) } := by
  simp [exec, execInit, hb]

/-- `BRIGHT` on an idle block that is initialised (R164). -/
theorem exec_bright_of_inited {s : State} (hb : s.busy = false) (hi : s.inited = true) (level : Int) :
    exec (.bright level) s = .next { s.accept 1 with cmdb := ctrlOf (operand s.params level) } := by
  simp [exec, execBright, hb, hi]

/-- `SHOW` on an idle block that is initialised (R165). -/
theorem exec_showDec_of_inited {s : State} (hb : s.busy = false) (hi : s.inited = true) (value : Int) (colon : Bool) :
    exec (.showDec value colon) s =
      .next { s.accept 2 with buf := segEncode s.params.seg (operand s.params value) colon } := by
  simp [exec, execShow, hb, hi]

/-- `BRIGHT` before `INIT` (R167). -/
theorem exec_bright_of_not_inited {s : State} (hb : s.busy = false) (hi : s.inited = false) (level : Int) :
    exec (.bright level) s = .refused .beforeInit := by
  simp [exec, execBright, hb, hi]

/-- `SHOW` before `INIT` (R167). -/
theorem exec_showDec_of_not_inited {s : State} (hb : s.busy = false) (hi : s.inited = false) (value : Int)
    (colon : Bool) : exec (.showDec value colon) s = .refused .beforeInit := by
  simp [exec, execShow, hb, hi]

/-- `s` with `rst` sampled and the word at the port taken, `rest` the words behind it (R9, R160). -/
def State.taken (s : State) (rest : List Nat) : State := { s.tick with cmdIn := rest }

/-- The step of an idle block is the instruction of the word at the port (R160, R161). -/
theorem step_of_word {s : State} {n : Nat} {rest : List Nat} (hr : s.rstNow = false) (hb : s.busy = false)
    (hc : s.cmdIn = n :: rest) :
    step s = exec (decodeHost (portWord s.params n)) (s.taken rest) := by
  rw [step_of_idle hr hb, idleStep, show s.tick.cmdIn = n :: rest from hc]
  rfl

theorem decodeHost_of_opField_zero {xlen : Nat} {cw : BitVec (xlen + 3)} (h : opField cw = 0) :
    decodeHost cw = .init := by
  rw [decodeHost, h]; rfl

theorem decodeHost_of_opField_one {xlen : Nat} {cw : BitVec (xlen + 3)} (h : opField cw = 1) :
    decodeHost cw = .bright (argField cw).toInt := by
  rw [decodeHost, h]; rfl

theorem decodeHost_of_opField_two {xlen : Nat} {cw : BitVec (xlen + 3)} (h : opField cw = 2) :
    decodeHost cw = .showDec (argField cw).toInt (colonField cw) := by
  rw [decodeHost, h]; rfl

theorem decodeHost_of_opField_three {xlen : Nat} {cw : BitVec (xlen + 3)} (h : opField cw = 3) :
    decodeHost cw = .reservedH3 := by
  rw [decodeHost, h]; rfl

/-- Settles O7: the opcode fixes the instruction, and `INITED` whether it is accepted. -/
theorem acceptChecksThenLatches : Obligations.AcceptChecksThenLatches := by
  intro s n rest hr hb hc cw s0
  rw [step_of_word hr hb hc]
  refine ⟨fun hop => ?_, fun hop hi => ?_, fun hop => ?_, fun hop hi => ?_, fun hop hi => ?_⟩
  · rw [decodeHost_of_opField_three hop]
    rfl
  · obtain hop | hop := hop
    · rw [decodeHost_of_opField_one hop]
      exact exec_bright_of_not_inited (s := s.taken rest) hb hi _
    · rw [decodeHost_of_opField_two hop]
      exact exec_showDec_of_not_inited (s := s.taken rest) hb hi _ _
  · rw [decodeHost_of_opField_zero hop]
    exact exec_init_of_idle (s := s.taken rest) hb
  · rw [decodeHost_of_opField_one hop]
    nth_rewrite 2 [← operand_toInt s.params (argField cw)]
    exact exec_bright_of_inited (s := s.taken rest) hb hi _
  · rw [decodeHost_of_opField_two hop]
    nth_rewrite 2 [← operand_toInt s.params (argField cw)]
    exact exec_showDec_of_inited (s := s.taken rest) hb hi _ _

/-- Settles O16, by the value of `INITED`. -/
theorem operationsBeforeInitAreRefused : Obligations.OperationsBeforeInitAreRefused :=
  fun _ level value colon hb =>
    ⟨fun hi => ⟨exec_bright_of_not_inited hb hi level, exec_showDec_of_not_inited hb hi value colon⟩,
      fun hi => ⟨⟨_, exec_bright_of_inited hb hi level⟩, _, exec_showDec_of_inited hb hi value colon⟩,
      _, exec_init_of_idle hb⟩

/-- Settles O17: the meaning of each of the two codes is its refusal. -/
theorem reservedCodesAreRefused : Obligations.ReservedCodesAreRefused :=
  fun _ => ⟨rfl, rfl⟩

/-! ## The steps of an operation as its list performed whole (R63, R170, R171) -/

/-- What comes after the first part matters only for the states that it answers. -/
theorem thenDo_congr {r : Result} {f g : State → Result} (h : ∀ t, r = .next t → f t = g t) :
    thenDo r f = thenDo r g := by
  cases r with
  | next t => exact h t rfl
  | fault e => rfl
  | refused e => rfl

/-- `s` with the sequencer at `upc` and the levels `rst` in store for the reset input. -/
def State.movedTo (s : State) (upc : BitVec 8) (rst : List Bool) : State := { s with upc := upc, rstIn := rst }

/-- A micro-operation neither reads nor writes the position and the levels of `rst` (R100). -/
theorem performUop_movedTo (u : Uop) (s : State) (upc : BitVec 8) (rst : List Bool) :
    performUop u (s.movedTo upc rst) = thenDo (performUop u s) fun t => .next (t.movedTo upc rst) := by
  by_cases hu : u = .dioSample
  · subst hu
    cases hd : s.lines.dioDir with
    | out => rw [performUop_sample_out hd, performUop_sample_out (s := s.movedTo upc rst) hd, thenDo_refused]
    | inp => rw [performUop_sample hd, performUop_sample (s := s.movedTo upc rst) hd]; rfl
  · rw [performUop_drive hu, performUop_drive hu]; rfl

theorem performAll_movedTo (us : List Uop) (s : State) (upc : BitVec 8) (rst : List Bool) :
    performAll us (s.movedTo upc rst) = thenDo (performAll us s) fun t => .next (t.movedTo upc rst) := by
  induction us generalizing s with
  | nil => rfl
  | cons u us ih =>
    rw [performAll_cons, performAll_cons, performUop_movedTo, thenDo_assoc, thenDo_assoc]
    exact thenDo_congr fun t _ => ih t

/-- No list of micro-operations writes the opcode (R25). -/
theorem performAll_op {us : List Uop} {s t : State} (h : performAll us s = .next t) : t.op = s.op := by
  induction us generalizing s with
  | nil =>
    obtain rfl := Host.Outcome.next.inj h
    rfl
  | cons u us ih =>
    obtain ⟨m, hm, ht⟩ := thenDo_eq_next.mp h
    obtain ⟨-, -, hop, -⟩ := performUop_frame hm
    exact (ih ht).trans hop

/-- The next step takes one level of `rst`, so the rest has none to reset it (R223). -/
theorem State.NoReset.tick {s : State} {n : Nat} (hr : s.NoReset (n + 1)) : s.tick.NoReset n := by
  intro b hb
  rw [State.tick_rstIn, ← List.drop_one, List.take_drop, Nat.add_comm] at hb
  exact hr b (List.mem_of_mem_drop hb)

/-- `s` after the last micro-operation of its list, with the levels `rst` still in store (R175). -/
def State.completed (s : State) (rst : List Bool) : State :=
  { s with upc := 0, busy := false, inited := s.inited || s.op == 0, rstIn := rst }

/-- The steps from a place of an operation to its end perform the rest of its list, whatever the lines are (R171). -/
theorem steps_rest {us : List Uop} {s : State} (hb : s.busy = true) (hus : s.prog.drop s.upc.toNat = us)
    (hne : us ≠ []) (hr : s.NoReset us.length) :
    steps us.length s = thenDo (performAll us s) fun t => .next (t.completed (s.rstIn.drop us.length)) := by
  induction us generalizing s with
  | nil => exact absurd rfl hne
  | cons u us ih =>
    have hu : s.currentUop = some u := by
      rw [State.currentUop_eq_getElem?, ← List.head?_drop, hus, List.head?_cons]
    have hlen : progLen s.op = s.upc.toNat + (us.length + 1) := by
      have h := congrArg List.length hus
      rw [List.length_drop, State.prog, length_prog, List.length_cons] at h
      omega
    have hrst : s.rstNow = false := (State.RanFor.refl s).rstNow_eq_false hr (Nat.succ_pos _)
    rw [List.length_cons, steps_succ, step_of_busy hrst hb hu, performAll_cons, thenDo_assoc, thenDo_assoc,
      show s.tick = s.movedTo s.upc s.rstIn.tail from rfl, performUop_movedTo, thenDo_assoc]
    refine thenDo_congr fun m hm => ?_
    obtain ⟨hbuf, hcmdb, hop, -, hbusy, -, hparams, -⟩ := performUop_frame hm
    simp only [thenDo_next]
    by_cases hlast : us = []
    · have hadv : s.upc.toNat + 1 = progLen m.op := by simp [hop, hlen, hlast]
      rw [State.advance_last (s := m.movedTo _ _) hadv, hlast]
      simp [State.completed, State.movedTo]
    · have hpos : 0 < us.length := List.length_pos_iff.mpr hlast
      have hle := progLen_le s.op
      have hadv : s.upc.toNat + 1 ≠ progLen m.op := by rw [hop]; omega
      have hupc : (s.upc + 1).toNat = s.upc.toNat + 1 := by bv_omega
      have hrest : s.prog.drop (s.upc + 1).toNat = us := by rw [hupc, ← List.tail_drop, hus, List.tail_cons]
      have hprog : (m.movedTo (s.upc + 1) s.rstIn.tail).prog = s.prog := by
        simp [State.prog, State.movedTo, hbuf, hcmdb, hop, hparams]
      rw [State.advance_inner (s := m.movedTo _ _) hadv]
      refine (ih (s := m.movedTo (s.upc + 1) s.rstIn.tail) (hbusy.trans hb) (hprog ▸ hrest) hlast ?_).trans ?_
      · exact hr.tick
      · rw [performAll_movedTo, thenDo_assoc]
        refine thenDo_congr fun t _ => ?_
        simp [State.completed, State.movedTo]

/-- An operation at its first place performs its list, with the levels of `rst` taken first, and its end leaves the
position at 0 again (R63, R171, R175). -/
theorem steps_prog {s : State} {op : BitVec 2} {len : Nat} (hb : s.busy = true) (hupc : s.upc = 0) (hop : s.op = op)
    (hlen : progLen op = len) (hpos : 0 < len) (hr : s.NoReset len) :
    steps len s =
      thenDo (performAll (prog s.params s.cmdb s.buf op) (s.movedTo s.upc (s.rstIn.drop len))) fun t =>
        .next { t with busy := false, inited := t.inited || op == 0 } := by
  subst hop
  have hlist : s.prog.length = len := (length_prog ..).trans hlen
  have hne : s.prog ≠ [] := List.length_pos_iff.mp (hlist ▸ hpos)
  have hrun := steps_rest hb (us := s.prog) (by rw [hupc]; rfl) hne (hlist ▸ hr)
  rw [hlist] at hrun
  rw [hrun, performAll_movedTo, thenDo_assoc]
  refine thenDo_congr fun t ht => ?_
  simp [State.completed, State.movedTo, performAll_op ht, hupc]

/-- The bytes of a frame F2 after the first are patterns of their own value (R79). -/
theorem patternByte_fields (b : Byte) : patternByte (b.getLsbD 7) (b.extractLsb' 0 7) = b := by
  revert b
  decide

theorem exec_decodeDataByte (b : Byte) (s : State) : exec (decodeDataByte b) s = performAll (sendByteUops b) s := by
  simp only [decodeDataByte, exec, execPattern, patternByte_fields]

/-- `performAll_append` for a list whose state is still to come. -/
theorem performAll_append_eq (us vs : List Uop) :
    performAll (us ++ vs) = fun s => thenDo (performAll us s) (performAll vs) :=
  funext fun s => performAll_append us vs s

/-- The data command leaves the parameters, so the address command sends `CMD_ADDR` of the state before it. -/
theorem exec_addr_of_data {s t : State} (h : exec .data s = .next t) :
    exec .addr t = performAll (startUops ++ sendByteUops s.params.cmdAddr) t := by
  obtain rfl := Host.Outcome.next.inj ((performAll_cmdFrame s.params.cmdData s).symm.trans h)
  rfl

/-- The list of `SHOW` as its wire bytes one after the other, and the `STOP` that ends the burst (R165, R170). -/
theorem performAll_prog_show_eq_exec (cmdb : Byte) (buf : Vector Byte 4) (s : State) :
    performAll (prog s.params cmdb buf 2) s =
      thenDo (exec .data s) fun t1 => thenDo (exec .addr t1) fun t2 =>
        thenDo (exec (decodeDataByte buf[0]) t2) fun t3 => thenDo (exec (decodeDataByte buf[1]) t3) fun t4 =>
        thenDo (exec (decodeDataByte buf[2]) t4) fun t5 => thenDo (exec (decodeDataByte buf[3]) t5) (exec .stop) := by
  rw [prog_show, performAll_append]
  refine thenDo_congr fun t1 h1 => ?_
  simp only [exec_addr_of_data h1, exec_decodeDataByte, patternUops, performAll_append_eq, thenDo_assoc]
  rfl

/-- Settles O58: the steps are the list performed whole, and the list is its parts one after the other. -/
theorem microStepsComposeThePrimitives : Obligations.MicroStepsComposeThePrimitives := by
  refine fun s hb hupc => ⟨fun hop hr => ?_, fun hop hr => ?_, fun hop hr => ?_⟩
  · rw [steps_prog hb hupc hop progLen_init (by decide) hr, prog_init, performAll_append, thenDo_assoc]
    simp only [Bool.or_true, BEq.rfl]
    rfl
  · rw [steps_prog hb hupc hop progLen_bright (by decide) hr, prog_bright]
    simp only [Bool.or_false, show ((1 : BitVec 2) == 0) = false from rfl]
    rfl
  · rw [steps_prog hb hupc hop progLen_show (by decide) hr]
    refine (congrArg (thenDo · _)
      (performAll_prog_show_eq_exec s.cmdb s.buf (s.movedTo s.upc (s.rstIn.drop 202)))).trans ?_
    simp only [thenDo_assoc, Bool.or_false, show ((2 : BitVec 2) == 0) = false from rfl]
    rfl

/-! ## The levels that the cells of an operation draw (R107) -/

/-- The level that the `k`-th sample to come draws: a listed one, or a free one once the list has ended (R7, U7). -/
def State.levelAt (s : State) (k : Nat) : Bool := s.dioIn.getD k (Config.freeLevel (s.freeIdx + (k - s.dioIn.length)))

theorem State.nextLevel_eq_levelAt (s : State) : s.nextLevel = s.levelAt 0 := by
  simp [State.nextLevel, State.levelAt, List.head?_eq_getElem?]

/-- The levels that are listed are drawn in the order of the list. -/
theorem State.dioIn_eq_levels_append {s : State} {n : Nat} (h : n ≤ s.dioIn.length) :
    s.dioIn = (List.range n).map s.levelAt ++ s.dioIn.drop n := by
  have htake : (List.range n).map s.levelAt = s.dioIn.take n := by
    refine List.ext_getElem (by simpa using h) fun i hi _ => ?_
    have hlt : i < s.dioIn.length := by simp at hi; omega
    simp [State.levelAt, hlt]
  rw [htake, List.take_append_drop]

/-- `s` after the byte cells 0 to `k`: their samples drawn, the last one shown in `ACK_LAST`, the lines `l`, and the
entries `es`, given the levels, added. -/
def State.afterCells (s : State) (k : Nat) (l : Lines) (es : (Nat → Bool) → List PinEvent) : State :=
  { s with
    lines := l
    ackLast := s.levelAt k
    trace := s.trace ++ es s.levelAt
    dioIn := s.dioIn.drop (k + 1)
    freeIdx := s.freeIdx + (k + 1 - s.dioIn.length) }

/-- One cell is the cell 0. -/
theorem State.afterCell_eq_afterCells (s : State) (l : Lines) (es : Bool → List PinEvent) :
    s.afterCell l es = s.afterCells 0 l fun a => es (a 0) := by
  cases h : s.dioIn <;> simp [State.afterCell, State.afterCells, State.nextLevel_eq_levelAt, h]

/-- After the cells 0 to `k` the next level is that of cell `k + 1`. -/
theorem State.afterCells_nextLevel (s : State) (k : Nat) (l : Lines) (es : (Nat → Bool) → List PinEvent) :
    (s.afterCells k l es).nextLevel = s.levelAt (k + 1) := by
  simp [State.nextLevel, State.afterCells, State.levelAt, List.head?_drop]

/-- One more cell: its level is the next one, and its entries come last. -/
theorem State.afterCells_afterCell (s : State) (k : Nat) (l l' : Lines) (es : (Nat → Bool) → List PinEvent)
    (f : Bool → List PinEvent) :
    (s.afterCells k l es).afterCell l' f = s.afterCells (k + 1) l' fun a => es a ++ f (a (k + 1)) := by
  have hfree : (if s.dioIn.length ≤ k + 1 then s.freeIdx + (k + 1 - s.dioIn.length) + 1
      else s.freeIdx + (k + 1 - s.dioIn.length)) = s.freeIdx + (k + 1 + 1 - s.dioIn.length) := by
    split <;> omega
  rw [State.afterCell, State.afterCells_nextLevel]
  simp [State.afterCells, hfree]

/-- Line writes after the cells: the writes set the lines, and their entries come last. -/
theorem State.afterCells_afterWrites (s : State) (k : Nat) (l l' : Lines) (es : (Nat → Bool) → List PinEvent)
    (fs : List PinEvent) : (s.afterCells k l es).afterWrites l' fs = s.afterCells k l' fun a => es a ++ fs := by
  simp [State.afterCells, State.afterWrites]

/-! ## The frames that the monitor sees (R129, R132) -/

/-- The monitor on a longer trace. -/
theorem scan_append (trace es : List PinEvent) : scan (trace ++ es) = es.foldl Monitor.next (scan trace) :=
  List.foldl_append

/-- The monitor between two frames: idle lines, and `fs` the frames so far. -/
structure Monitor.Between (m : Monitor) (fs : List Frame) : Prop where
  lines : m.lines = Lines.idle
  frames : m.frames = fs

/-- The monitor inside a frame after `fs`: `f` the bytes closed so far, and `vs` the bits since then. -/
structure Monitor.Inside (m : Monitor) (fs : List Frame) (f : Frame) (vs : List Bool) : Prop where
  dir : m.lines.dioDir = .out
  cur : m.cur = some f
  bits : m.bits = vs
  count : m.count % 9 = vs.length
  frames : m.frames = fs

/-- The trace entries of one bit (R124). -/
def bitEvents (v : Bool) : List PinEvent := [.clkLo, if v then .dioHi else .dioLo, .clkHi]

/-- The trace entries of `BUS_INIT` (R121). -/
def busInitEvents : List PinEvent := [.dioDirOut, .clkHi, .dioHi]

/-- `BUS_INIT` between two frames shows nothing (R121). -/
theorem Monitor.Between.busInit {m : Monitor} {fs : List Frame} (h : m.Between fs) :
    (busInitEvents.foldl Monitor.next m).Between fs := by
  obtain ⟨lines, cur, bits, count, frames⟩ := m
  obtain ⟨rfl, rfl⟩ := h
  cases cur <;> exact ⟨rfl, rfl⟩

/-- A `START` opens a frame (R122). -/
theorem Monitor.Between.start {m : Monitor} {fs : List Frame} (h : m.Between fs) :
    (startEvents.foldl Monitor.next m).Inside fs [] [] := by
  obtain ⟨lines, cur, bits, count, frames⟩ := m
  obtain ⟨rfl, rfl⟩ := h
  cases cur <;> exact ⟨rfl, rfl, rfl, rfl, rfl⟩

/-- A bit of a byte is collected at its clock pulse (R124). -/
theorem Monitor.Inside.bit {m : Monitor} {fs : List Frame} {f : Frame} {vs : List Bool} (h : m.Inside fs f vs)
    (hlen : vs.length < 8) (v : Bool) : ((bitEvents v).foldl Monitor.next m).Inside fs f (vs ++ [v]) := by
  obtain ⟨⟨clk, dio, dir⟩, cur, bits, count, frames⟩ := m
  obtain ⟨rfl, rfl, rfl, hcount, rfl⟩ := h
  replace hlen : bits.length < 8 := hlen
  replace hcount : count % 9 = bits.length := hcount
  have hnext : (count + 1) % 9 = bits.length + 1 := by omega
  have hbit : (bitEvents v).foldl Monitor.next ⟨⟨clk, dio, .out⟩, some f, bits, count, frames⟩ =
      ⟨⟨true, v, .out⟩, some f, bits ++ [v], count + 1, frames⟩ := by
    cases v <;>
      simp [bitEvents, Monitor.next, Monitor.onEvent, Monitor.onSample, wireEvent, Lines.perform, Lines.ownDio,
        PinEvent.uop, hnext]
  rw [hbit]
  exact ⟨rfl, rfl, rfl, by rw [hnext, List.length_append, List.length_singleton], rfl⟩

/-- Up to eight bits are collected in their order. -/
theorem Monitor.Inside.bits_append {m : Monitor} {fs : List Frame} {f : Frame} {vs ws : List Bool}
    (h : m.Inside fs f vs) (hlen : vs.length + ws.length ≤ 8) :
    ((ws.flatMap bitEvents).foldl Monitor.next m).Inside fs f (vs ++ ws) := by
  induction ws generalizing m vs with
  | nil => simpa using h
  | cons w ws ih =>
    rw [List.length_cons] at hlen
    rw [List.flatMap_cons, List.foldl_append, List.append_cons]
    exact ih (h.bit (by omega) w) (by rw [List.length_append, List.length_singleton]; omega)

/-- The ninth pulse and its sample close a byte (R125). -/
theorem Monitor.Inside.ack {m : Monitor} {fs : List Frame} {f : Frame} {vs : List Bool} (h : m.Inside fs f vs)
    (hlen : vs.length = 8) (a : Bool) :
    ((ackEvents a).foldl Monitor.next m).Inside fs (f ++ [(byteOfBits vs, a)]) [] := by
  obtain ⟨⟨clk, dio, dir⟩, cur, bits, count, frames⟩ := m
  obtain ⟨rfl, rfl, rfl, hcount, rfl⟩ := h
  replace hlen : bits.length = 8 := hlen
  replace hcount : count % 9 = bits.length := hcount
  have hnext : (count + 1) % 9 = 0 := by omega
  have hack : (ackEvents a).foldl Monitor.next ⟨⟨clk, dio, .out⟩, some f, bits, count, frames⟩ =
      ⟨Lines.afterByte, some (f ++ [(byteOfBits bits, a)]), [], count + 1, frames⟩ := by
    simp [ackEvents, Monitor.next, Monitor.onEvent, Monitor.onSample, wireEvent, Lines.perform, Lines.ownDio,
      PinEvent.uop, Lines.afterByte, hnext]
  rw [hack]
  exact ⟨rfl, rfl, rfl, hnext, rfl⟩

/-- The monitor's byte of the eight bits of `b` is `b` (R124, R132). -/
theorem byteOfBits_getLsbD (b : Byte) : byteOfBits ((List.range 8).map b.getLsbD) = b := by
  revert b
  decide

/-- A byte cell adds its byte, with the bit sampled (R124). -/
theorem Monitor.Inside.byte {m : Monitor} {fs : List Frame} {f : Frame} (h : m.Inside fs f []) (b : Byte) (a : Bool) :
    ((byteEvents b a).foldl Monitor.next m).Inside fs (f ++ [(b, a)]) [] := by
  have hbits : byteEvents b a = ((List.range 8).map b.getLsbD).flatMap bitEvents ++ ackEvents a := by
    rw [List.flatMap_map]
    rfl
  have hack := (h.bits_append (ws := (List.range 8).map b.getLsbD) (by simp)).ack (by simp) a
  rwa [List.nil_append, byteOfBits_getLsbD, ← List.foldl_append, ← hbits] at hack

/-- A `STOP` closes the frame; its own clock pulse reaches no byte (R123). -/
theorem Monitor.Inside.stop {m : Monitor} {fs : List Frame} {f : Frame} {vs : List Bool} (h : m.Inside fs f vs) :
    (stopEvents.foldl Monitor.next m).Between (fs ++ [f]) := by
  obtain ⟨⟨clk, dio, dir⟩, cur, bits, count, frames⟩ := m
  obtain ⟨rfl, rfl, rfl, -, rfl⟩ := h
  constructor <;>
    simp [stopEvents, Monitor.next, Monitor.onEvent, Monitor.onSample, wireEvent, Lines.perform, Lines.ownDio,
      PinEvent.uop, Lines.idle]

/-- The trace entries of `CMD_FRAME(b)` with sampled bit `a` (R126). -/
def frameEvents (b : Byte) (a : Bool) : List PinEvent := startEvents ++ byteEvents b a ++ stopEvents

/-- A frame of one byte, with the bit sampled (R74, R126). -/
theorem Monitor.Between.frame {m : Monitor} {fs : List Frame} (h : m.Between fs) (b : Byte) (a : Bool) :
    ((frameEvents b a).foldl Monitor.next m).Between (fs ++ [[(b, a)]]) := by
  rw [frameEvents, List.foldl_append, List.foldl_append]
  exact (h.start.byte b a).stop

/-- On an idle block the monitor stands between two frames (R128, R132). -/
theorem State.Framed.between {s : State} (hF : s.Framed) (hI : s.Inv) (hb : s.busy = false) :
    (scan s.trace).Between (monitor s.trace) := by
  obtain ⟨hlines, -⟩ := hF
  obtain ⟨hidle, -⟩ := hI.1 hb
  exact ⟨hlines.trans hidle, rfl⟩

/-! ## The list of each operation performed whole (R163 to R165) -/

/-- The list of `INIT` (R163). -/
theorem performAll_prog_init (p : Params) (cmdb : Byte) (buf : Vector Byte 4) (s : State) :
    performAll (prog p cmdb buf 0) s =
      .next (s.afterCells 0 Lines.idle fun a => busInitEvents ++ frameEvents cmdb (a 0)) := by
  rw [prog_init, performAll_append, performAll_of_no_sample (by decide), thenDo_next, performAll_cmdFrame,
    State.afterWrites_afterCell, State.afterCell_eq_afterCells]
  rfl

/-- The list of `BRIGHT` (R164). -/
theorem performAll_prog_bright (p : Params) (cmdb : Byte) (buf : Vector Byte 4) (s : State) :
    performAll (prog p cmdb buf 1) s = .next (s.afterCells 0 Lines.idle fun a => frameEvents cmdb (a 0)) := by
  rw [prog_bright, performAll_cmdFrame, State.afterCell_eq_afterCells]
  rfl

/-- A byte behind the cells 0 to `k` is one cell more (R124). -/
theorem performAll_sendByte_afterCells (b : Byte) (s : State) (k : Nat) (l : Lines)
    (es : (Nat → Bool) → List PinEvent) :
    performAll (sendByteUops b) (s.afterCells k l es) =
      .next (s.afterCells (k + 1) Lines.afterByte fun a => es a ++ byteEvents b (a (k + 1))) := by
  rw [performAll_sendByte, State.afterCells_afterCell]

/-- The four patterns behind the cells 0 to `k` (R165). -/
theorem performAll_patternUops_afterCells (buf : Vector Byte 4) (s : State) (k : Nat) (l : Lines)
    (es : (Nat → Bool) → List PinEvent) :
    performAll (patternUops buf) (s.afterCells k l es) =
      .next (s.afterCells (k + 4) Lines.afterByte fun a => es a ++ byteEvents buf[0] (a (k + 1)) ++
        byteEvents buf[1] (a (k + 2)) ++ byteEvents buf[2] (a (k + 3)) ++ byteEvents buf[3] (a (k + 4))) := by
  rw [patternUops, performAll_append, performAll_append, performAll_append, performAll_sendByte_afterCells, thenDo_next,
    performAll_sendByte_afterCells, thenDo_next, performAll_sendByte_afterCells, thenDo_next,
    performAll_sendByte_afterCells]

/-- The trace entries of a `SHOW`, with sampled bits `a 0` to `a 5` (R165). -/
def showEvents (p : Params) (buf : Vector Byte 4) (a : Nat → Bool) : List PinEvent :=
  frameEvents p.cmdData (a 0) ++ startEvents ++ byteEvents p.cmdAddr (a 1) ++ byteEvents buf[0] (a 2) ++
    byteEvents buf[1] (a 3) ++ byteEvents buf[2] (a 4) ++ byteEvents buf[3] (a 5) ++ stopEvents

/-- The list of `SHOW` (R165). -/
theorem performAll_prog_show (p : Params) (cmdb : Byte) (buf : Vector Byte 4) (s : State) :
    performAll (prog p cmdb buf 2) s = .next (s.afterCells 5 Lines.idle (showEvents p buf)) := by
  rw [prog_show, performAll_append, performAll_cmdFrame, thenDo_next, State.afterCell_eq_afterCells,
    performAll_append, performAll_start, thenDo_next, State.afterCells_afterWrites, performAll_append,
    performAll_sendByte_afterCells, thenDo_next, performAll_append, performAll_patternUops_afterCells, thenDo_next,
    performAll_stop, State.afterCells_afterWrites]
  rfl

/-! ## The run of an accepted operation (R161 to R165) -/

/-- What a performed list adds to the trace. -/
theorem performAll_map_uop {us : List Uop} {s t : State} (h : performAll us s = .next t) :
    t.trace.map PinEvent.uop = s.trace.map PinEvent.uop ++ us := by
  obtain ⟨es, rfl, htrace⟩ := performAll_trace h
  rw [htrace, List.map_append]

/-- `s` after acceptance of the operation `op`, with `rest` the words left and `cmdb` and `buf` in the data registers
(R161). -/
def State.started (s : State) (rest : List Nat) (op : BitVec 2) (cmdb : Byte) (buf : Vector Byte 4) : State :=
  { (s.taken rest).accept op with cmdb := cmdb, buf := buf }

@[simp] theorem State.started_trace (s : State) (rest : List Nat) (op : BitVec 2) (cmdb : Byte)
    (buf : Vector Byte 4) : (s.started rest op cmdb buf).trace = s.trace := rfl

/-- `s` at the end of an operation whose cells are 0 to `k` and whose entries are `es`, with the levels `rst` still in
store (R128, R175). -/
def State.finished (s : State) (k : Nat) (es : (Nat → Bool) → List PinEvent) (rst : List Bool) : State :=
  (s.afterCells k Lines.idle es).completed rst

/-- An accepted operation runs to its end, one step for its word and one for each micro-operation of its list. -/
theorem steps_of_accepted {s : State} {rest : List Nat} {op : BitVec 2} {cmdb : Byte} {buf : Vector Byte 4}
    {len k : Nat} {es : (Nat → Bool) → List PinEvent} (hstep : step s = .next (s.started rest op cmdb buf))
    (hlen : progLen op = len) (hpos : 0 < len) (hr : s.NoReset (len + 1))
    (hlist : ∀ t, performAll (prog s.params cmdb buf op) t = .next (t.afterCells k Lines.idle es)) :
    steps (len + 1) s = .next ((s.started rest op cmdb buf).finished k es (s.rstIn.tail.drop len)) := by
  obtain ⟨-, hrest⟩ := hr.step hstep
  rw [steps_succ, hstep, thenDo_next, steps_prog (s := s.started rest op cmdb buf) rfl rfl rfl hlen hpos hrest]
  exact congrArg (thenDo · _) (hlist _)

/-- What an operation adds to the trace: the micro-operations of its list (R63). -/
theorem State.map_uop_finished {us : List Uop} {k : Nat} {es : (Nat → Bool) → List PinEvent}
    (hlist : ∀ t, performAll us t = .next (t.afterCells k Lines.idle es)) (s : State) (rst : List Bool) :
    (s.finished k es rst).trace.map PinEvent.uop = s.trace.map PinEvent.uop ++ us :=
  performAll_map_uop (t := s.afterCells k Lines.idle es) (hlist s)

/-- The monitor after an operation, from what it makes of the operation's entries. -/
theorem State.monitor_finished {s : State} {k : Nat} {es : (Nat → Bool) → List PinEvent} {rst : List Bool}
    {fs : List Frame} (h : ((es s.levelAt).foldl Monitor.next (scan s.trace)).Between fs) :
    monitor (s.finished k es rst).trace = fs := by
  rw [monitor, show (s.finished k es rst).trace = s.trace ++ es s.levelAt from rfl, scan_append]
  exact h.frames

/-- Settles O55: the list of `INIT` performed whole, whose entries are a `BUS_INIT` and a frame to the monitor. -/
theorem initRunSendsOneFrame : Obligations.InitRunSendsOneFrame := by
  intro s n rest hI hF hb hc hd hr b
  have hrst : s.rstNow = false := (State.RanFor.refl s).rstNow_eq_false hr (by decide)
  have hstep : step s = .next (s.started rest 0 b s.buf) := by
    rw [step_of_word hrst hb hc, hd]
    exact exec_init_of_idle (s := s.taken rest) hb
  refine ⟨_, s.levelAt 0, steps_of_accepted hstep progLen_init (by decide) hr (performAll_prog_init _ _ _), rfl, rfl,
    Bool.or_true _, rfl, rfl, ?_, ?_, fun hne => ?_⟩
  · rw [List.append_assoc]
    exact State.map_uop_finished (performAll_prog_init s.params b s.buf) (s.started rest 0 b s.buf) _
  · refine State.monitor_finished ?_
    rw [List.foldl_append]
    exact (hF.between hI hb).busInit.frame b _
  · exact State.dioIn_eq_levels_append (n := 1) (List.length_pos_iff.mpr hne)

/-- Settles O56: the list of `BRIGHT` performed whole, whose entries are a frame to the monitor. -/
theorem brightRunSendsOneFrame : Obligations.BrightRunSendsOneFrame := by
  intro s n rest level hI hF hb hi hc hd hr b
  have hrst : s.rstNow = false := (State.RanFor.refl s).rstNow_eq_false hr (by decide)
  have hstep : step s = .next (s.started rest 1 b s.buf) := by
    rw [step_of_word hrst hb hc, hd]
    exact exec_bright_of_inited (s := s.taken rest) hb hi level
  refine ⟨_, s.levelAt 0, steps_of_accepted hstep progLen_bright (by decide) hr (performAll_prog_bright _ _ _), rfl,
    rfl, (Bool.or_false _).trans hi, rfl, rfl, rfl, ?_, ?_, fun hne => ?_⟩
  · exact State.map_uop_finished (performAll_prog_bright s.params b s.buf) (s.started rest 1 b s.buf) _
  · exact State.monitor_finished ((hF.between hI hb).frame b _)
  · exact State.dioIn_eq_levels_append (n := 1) (List.length_pos_iff.mpr hne)

/-- The entries of a `SHOW` are two frames to the monitor: the data command, and the address command with the four
patterns (R165, R168). -/
theorem Monitor.Between.showFrames {m : Monitor} {fs : List Frame} (h : m.Between fs) (p : Params) (buf : Vector Byte 4)
    (a : Nat → Bool) :
    ((showEvents p buf a).foldl Monitor.next m).Between (fs ++
      [[(p.cmdData, a 0)], [(p.cmdAddr, a 1), (buf[0], a 2), (buf[1], a 3), (buf[2], a 4), (buf[3], a 5)]]) := by
  simp only [showEvents, List.foldl_append]
  have hburst := ((((((h.frame p.cmdData (a 0)).start.byte p.cmdAddr (a 1)).byte buf[0] (a 2)).byte buf[1] (a 3)).byte
    buf[2] (a 4)).byte buf[3] (a 5)).stop
  rwa [List.append_assoc] at hburst

/-- Settles O57: the list of `SHOW` performed whole, whose entries are two frames to the monitor. -/
theorem showRunSendsTwoFrames : Obligations.ShowRunSendsTwoFrames := by
  intro s n rest value colon hI hF hb hi hc hd hr b
  have hrst : s.rstNow = false := (State.RanFor.refl s).rstNow_eq_false hr (by decide)
  have hstep : step s = .next (s.started rest 2 s.cmdb b) := by
    rw [step_of_word hrst hb hc, hd]
    exact exec_showDec_of_inited (s := s.taken rest) hb hi value colon
  refine ⟨_, s.levelAt 0, s.levelAt 1, s.levelAt 2, s.levelAt 3, s.levelAt 4, s.levelAt 5,
    steps_of_accepted hstep progLen_show (by decide) hr (performAll_prog_show _ _ _), rfl, rfl,
    (Bool.or_false _).trans hi, rfl, rfl, rfl, ?_, ?_, fun h6 => ?_⟩
  · have huops := State.map_uop_finished (performAll_prog_show s.params s.cmdb b) (s.started rest 2 s.cmdb b)
      (s.rstIn.tail.drop 202)
    simpa only [prog_show, patternUops, List.append_assoc, State.started_trace] using huops
  · exact State.monitor_finished ((hF.between hI hb).showFrames s.params b _)
  · exact State.dioIn_eq_levels_append h6

end Sys2Proof.Machine

namespace Sys2Proof.Machine

/-! ## The `Reset` step (R195, R220) -/

/-- Settles O8: `step` asks for `rst` first (`step_of_reset`), and `OP`, `CMDB` and `BUF` take the free values of
`State.takeReset`. -/
theorem resetStepWins : Obligations.ResetStepWins := fun s hr =>
  ⟨s.tick.takeReset.op, s.tick.takeReset.cmdb, s.tick.takeReset.buf, step_of_reset hr⟩

end Sys2Proof.Machine

/-! ## The state after reset (R38, R222) -/

namespace Sys2Proof.Machine

/-- Settles O9, value by value. -/
theorem resetStateHoldsTheResetValues : Obligations.ResetStateHoldsTheResetValues :=
  ⟨rfl, rfl, rfl, rfl, rfl, rfl, rfl, rfl, rfl, rfl⟩

end Sys2Proof.Machine

/-! # What a host that keeps its duties is promised (R230, R232) -/

namespace Sys2Proof.Machine

open Sys2Proof

/-- An idle step keeps the duties: with no word it changes nothing, and an accepted word starts an `INIT` or finds the
block initialised (R161, R167). -/
theorem State.HostDuties.of_idleStep {s t : State} (hd : s.HostDuties) (hb : s.busy = false)
    (h : idleStep s = .next t) : t.HostDuties := by
  cases hc : s.cmdIn with
  | nil =>
    obtain ⟨-, rfl⟩ | ⟨_, _, hne, -⟩ := idleStep_cases hb h
    · exact hd
    · simp [hc] at hne
  | cons n rest =>
    obtain ⟨hbusy, -, -, -, hparams, hcmdIn, -, -, hinit⟩ := idleStep_accepts hb hc h
    obtain ⟨hreserved, -⟩ := hd
    refine ⟨fun w hw => ?_, fun hi _ => hinit hi, by simp [hbusy]⟩
    rw [hparams]
    exact hreserved w (hc ▸ List.mem_cons_of_mem n (hcmdIn ▸ hw))

/-- A step inside an operation keeps the duties: it moves none of what they speak of (R171). -/
theorem State.HostDuties.of_inner {s t : State} {k : Nat} (hd : s.HostDuties) (hsb : s.busy = true)
    (hran : s.RanFor k t) (htb : t.busy = true) (hti : t.inited = s.inited) : t.HostDuties := by
  obtain ⟨hreserved, hinit, -⟩ := hd
  refine ⟨?_, fun hi _ => ?_, by simp [htb]⟩
  · rwa [hran.cmdIn, hran.params]
  · rw [hran.op]
    exact hinit (hti ▸ hi) hsb

/-- The step of an idle block goes through: there is no word, or one that is not refused (R161, R167). -/
theorem State.HostDuties.idle_step {s : State} (hd : s.HostDuties) (hb : s.busy = false) (hr : s.rstNow = false) :
    ∃ t, step s = .next t ∧ t.HostDuties := by
  obtain ⟨t, ht⟩ : ∃ t, idleStep s.tick = .next t := by
    cases hc : s.cmdIn with
    | nil => exact ⟨s.tick, by rw [idleStep, State.tick_cmdIn, hc]⟩
    | cons n rest => exact idleStep_next_of_duties (s := s.tick) hb hd hc
  exact ⟨t, (step_of_idle hr hb).trans ht, State.HostDuties.of_idleStep (s := s.tick) hd hb ht⟩

/-- The step of an operation in progress goes through, inside its list or at its end (R171, R175). -/
theorem State.HostDuties.busy_step {s : State} (hd : s.HostDuties) (hI : s.Inv) (hb : s.busy = true)
    (hr : s.rstNow = false) : ∃ t, step s = .next t ∧ t.HostDuties := by
  obtain ⟨hlt, -⟩ := hI.2 hb
  obtain hinner | hlast : s.upc.toNat + 1 < progLen s.op ∨ s.upc.toNat + 1 = progLen s.op := by omega
  · obtain ⟨t, ht, hran, -, hbusy, -, hinited⟩ := hI.busy_step_inner hb hr hinner
    exact ⟨t, ht, hd.of_inner hb hran hbusy hinited⟩
  · obtain ⟨t, ht, hran, hbusy, -, -, hinited⟩ := hI.busy_step_last hb hr hlast
    exact ⟨t, ht, hd.of_completed hb hran hbusy hinited⟩

/-- Settles O59, by induction on the number of steps: each goes through and keeps the duties, and O47 keeps the
invariant. -/
theorem dutifulHostIsNeverRefused : Obligations.DutifulHostIsNeverRefused := by
  intro n
  induction n with
  | zero => exact fun s hI hd _ => ⟨s, rfl, hI, hd⟩
  | succ n ih =>
    intro s hI hd hr
    have hrst : s.rstNow = false := (State.RanFor.refl s).rstNow_eq_false hr n.succ_pos
    obtain ⟨m, hm, hmd⟩ : ∃ m, step s = .next m ∧ m.HostDuties := by
      cases hb : s.busy with
      | false => exact hd.idle_step hb hrst
      | true => exact hd.busy_step hI hb hrst
    obtain ⟨-, hmr⟩ := hr.step hm
    obtain ⟨t, ht, htI, htd⟩ := ih m (everyStepKeepsTheLinesInStep s m hI hm) hmd hmr
    exact ⟨t, by rw [steps_succ, hm, thenDo_next, ht], htI, htd⟩

end Sys2Proof.Machine

/-! # The counts of each list (R244) -/

namespace Sys2Proof.Machine

open Sys2Proof

/-- The row of a list in two parts is the sum of the parts' rows, the second from the lines that the first leaves. -/
theorem countsFrom_append (l : Lines) (us vs : List Uop) :
    countsFrom l (us ++ vs) = countsFrom l us + countsFrom (us.foldl (fun l u => l.perform u) l) vs := by
  simp only [countsFrom, wireEvents_append, List.length_append, List.count_append, Prod.mk_add_mk]

/-- The row of a list that only pulses the clock, from any lines with data an output. -/
theorem PulsesOutput.countsFrom_eq {k : Nat} {us : List Uop} (h : PulsesOutput k us) {l : Lines}
    (hl : l.dioDir = .out) : countsFrom l us = (us.length, us.count .dioSample, k, 0, 0) := by
  simp [countsFrom, (h l hl).1, List.count_replicate]

/-- A bit has no sample (R124). -/
theorem count_dioSample_bitUops (v : Bool) : (bitUops v).count .dioSample = 0 :=
  List.count_eq_zero.mpr (dioSample_not_mem_bitUops v)

/-- A byte cell has one sample, that of its acknowledgment (R124, R125). -/
theorem count_dioSample_sendByteUops (b : Byte) : (sendByteUops b).count .dioSample = 1 := by
  simp only [sendByteUops, List.count_append, count_dioSample_bitUops]
  rfl

/-- The row of `SEND_BYTE`, from any lines with data an output. -/
theorem countsFrom_sendByte (b : Byte) {l : Lines} (hl : l.dioDir = .out) :
    countsFrom l (sendByteUops b) = (31, 1, 9, 0, 0) := by
  rw [(pulsesOutput_sendByte b).countsFrom_eq hl, length_sendByteUops, count_dioSample_sendByteUops]

/-- The row of `BUS_INIT`. -/
theorem countsFrom_busInit : countsFrom Lines.idle busInitUops = (3, 0, 0, 0, 0) := rfl

/-- The row of `START`, on an idle bus. -/
theorem countsFrom_start : countsFrom Lines.idle startUops = (4, 0, 0, 1, 0) := rfl

/-- The row of `STOP`, after a byte. -/
theorem countsFrom_stop : countsFrom Lines.afterByte stopUops = (4, 0, 1, 0, 1) := rfl

/-- The row of `CMD_FRAME`: those of `START`, `SEND_BYTE` and `STOP` (R126). -/
theorem countsFrom_cmdFrame (b : Byte) : countsFrom Lines.idle (cmdFrameUops b) = (39, 1, 10, 1, 1) := by
  rw [cmdFrameUops, countsFrom_append, countsFrom_append, List.foldl_append, foldl_perform_sendByte, countsFrom_start,
    countsFrom_sendByte b rfl, countsFrom_stop]
  rfl

/-- The row of the four patterns of a `SHOW`: four byte cells (R165). -/
theorem countsFrom_patternUops (buf : Vector Byte 4) :
    countsFrom Lines.afterByte (patternUops buf) = (124, 4, 36, 0, 0) := by
  simp only [patternUops, countsFrom_append, List.foldl_append, foldl_perform_sendByte,
    countsFrom_sendByte (l := Lines.afterByte) _ rfl]
  rfl

/-- The row of `INIT`: those of `BUS_INIT` and a frame (R163). -/
theorem countsFrom_prog_init (p : Params) (cmdb : Byte) (buf : Vector Byte 4) :
    countsFrom Lines.idle (prog p cmdb buf 0) = (42, 1, 10, 1, 1) := by
  have hidle : busInitUops.foldl (fun l u => l.perform u) Lines.idle = Lines.idle := rfl
  rw [prog_init, countsFrom_append, hidle, countsFrom_busInit, countsFrom_cmdFrame]
  rfl

/-- The row of `SHOW`: a frame, then a frame of five byte cells (R165, R168). -/
theorem countsFrom_prog_show (p : Params) (cmdb : Byte) (buf : Vector Byte 4) :
    countsFrom Lines.idle (prog p cmdb buf 2) = (202, 6, 56, 2, 2) := by
  have hlast : (patternUops buf).foldl (fun l u => l.perform u) Lines.afterByte = Lines.afterByte := by
    rw [patternUops, List.foldl_append, foldl_perform_sendByte]
  rw [prog_show, countsFrom_append, countsFrom_append, countsFrom_append, countsFrom_append, foldl_perform_cmdFrame,
    foldl_perform_sendByte, hlast, countsFrom_cmdFrame, countsFrom_start, countsFrom_sendByte _ rfl,
    countsFrom_patternUops, countsFrom_stop]
  rfl

/-- Settles O37: the rows of the primitives, and those of the operations as their sums. -/
theorem listsHaveTheCountsOfTheTable : Obligations.ListsHaveTheCountsOfTheTable :=
  ⟨countsFrom_busInit, countsFrom_start, countsFrom_stop, fun _ => pulsesOutput_readAck.countsFrom_eq rfl,
    fun b _ => countsFrom_sendByte b rfl, countsFrom_cmdFrame,
    fun p cmdb buf => ⟨countsFrom_prog_init p cmdb buf, countsFrom_cmdFrame cmdb, countsFrom_prog_show p cmdb buf⟩⟩

end Sys2Proof.Machine

/-! # Encodings, the step, and the host operations one at a time (R6, R12, R70 to R90, R160 to R171) -/

namespace Sys2Proof.Machine

open Sys2Proof

/-! ## Decoding and encoding (R71 to R79, R89, R90) -/

/-- An integer in range is its own value in `xlen` bits (R12): `toInt_operand`, for a width outside any parameters. -/
theorem toInt_ofInt_of_fitsSigned {xlen : Nat} {v : Int} (hw : 0 < xlen) (h : fitsSigned xlen v = true) :
    (BitVec.ofInt xlen v).toInt = v :=
  toInt_operand (p := { Config.vectorParams with xlen := xlen }) hw h

/-- A control byte in a frame F1 is not the data command, and its two fields come back (R76, R77). -/
theorem decodeFrameByte_ctrlByte (on : Bool) (lvl : BitVec 3) :
    decodeFrameByte (ctrlByte on lvl) = .ok (.ctrl on lvl) := by
  revert on lvl; decide

/-- A pattern byte gives its two fields back (R79). -/
theorem decodeDataByte_patternByte (colonDp : Bool) (segments : BitVec 7) :
    decodeDataByte (patternByte colonDp segments) = .pattern colonDp segments := by
  have hcolon : (patternByte colonDp segments).getLsbD 7 = colonDp :=
    BitVec.getLsbD_append.trans (by simp)
  have hsegments : (patternByte colonDp segments).extractLsb' 0 7 = segments :=
    BitVec.extractLsb'_append_eq_right
  rw [decodeDataByte, hcolon, hsegments]

/-- Settles O1, by the instruction: host words and wire bytes give their fields back, a host operand being its own value
in `XLEN` bits; the other codes are fixed numbers, and the two reserved ones are not well-formed. -/
theorem decodeOfEncodeIsTheInstruction : Obligations.DecodeOfEncodeIsTheInstruction := by
  intro xlen i hxlen hwf
  have hpos : 0 < xlen := by omega
  cases i with
  | init => exact congrArg Except.ok (decodeHost_of_opField_zero (opField_hostWord 0 false 0))
  | bright level =>
    have hlevel := toInt_ofInt_of_fitsSigned hpos hwf
    rw [encode, decode, decodeHost_of_opField_one (opField_hostWord ..), argField_hostWord, hlevel]
  | showDec value colon =>
    have hvalue := toInt_ofInt_of_fitsSigned hpos hwf
    rw [encode, decode, decodeHost_of_opField_two (opField_hostWord ..), argField_hostWord, colonField_hostWord, hvalue]
  | ctrl on lvl => exact decodeFrameByte_ctrlByte on lvl
  | pattern colonDp segments => exact congrArg Except.ok (decodeDataByte_patternByte colonDp segments)
  | reservedH3 | reservedU7 => cases hwf
  | _ => rfl

/-- Settles O2: the decoded instruction keeps the operand whole (R80), and a word is its fields. -/
theorem hostWordsHaveOneMeaning : Obligations.HostWordsHaveOneMeaning := by
  intro xlen cw
  refine ⟨fun hop hcolon => ?_, fun hop => ?_⟩
  · have hword : hostWord 1 false (argField cw) = cw := by rw [← hop, ← hcolon, hostWord_fields]
    rw [decodeHost_of_opField_one hop, encode, BitVec.ofInt_toInt, hword]
  · have hword : hostWord 2 (colonField cw) (argField cw) = cw := by rw [← hop, hostWord_fields]
    rw [decodeHost_of_opField_two hop, encode, BitVec.ofInt_toInt, hword]

/-- Settles O4, by running the decoder on each word. -/
theorem specWordsDecodeAsWritten : Obligations.SpecWordsDecodeAsWritten := by
  unfold Obligations.SpecWordsDecodeAsWritten
  decide

/-! ## The step (R6, R160 to R162, R171) -/

/-- Settles O5: `step_of_word`, with the word on its `XLEN + 3` wires. -/
theorem stepRunsThePresentedWord : Obligations.StepRunsThePresentedWord :=
  fun _ _ _ hr hb hc => step_of_word hr hb hc

/-- Settles O6: the micro-operation leaves `OP` and `UPC` as they were, so the advance ends the list of `s`. -/
theorem microStepPerformsThenAdvances : Obligations.MicroStepPerformsThenAdvances := by
  intro s u hr hb hu
  have hlen : s.prog.length = progLen s.op := length_prog ..
  rw [step_of_busy hr hb hu, exec_toInstr, hlen]
  refine thenDo_congr fun t ht => congrArg Host.Outcome.next ?_
  obtain ⟨-, -, hop, hupc, -⟩ := performUop_frame ht
  replace hop : t.op = s.op := hop
  replace hupc : t.upc = s.upc := hupc
  by_cases hlast : s.upc.toNat + 1 = progLen s.op
  · have hinited : (t.inited || s.op == 0) = if s.op = 0 then true else t.inited := by
      by_cases hinit : s.op = 0#2 <;> simp [hinit]
    rw [State.advance_last (by rw [hop, hupc, hlast]), if_pos hlast, hop, hinited]
  · rw [State.advance_inner (by rwa [hop, hupc]), if_neg hlast, hupc]

/-- Settles O10: the idle step has no word to run. -/
theorem idleBlockWithoutAWordStaysIdle : Obligations.IdleBlockWithoutAWordStaysIdle := by
  intro s hr hb hc
  rw [step_of_idle hr hb, idleStep, show s.tick.cmdIn = [] from hc]
  rfl

/-- `s` with other words at the port. -/
def State.withWords (s : State) (words : List Nat) : State := { s with cmdIn := words }

/-- A micro-operation goes through whatever words stand at the port, and leaves them there (R100). -/
theorem performUop_withWords {u : Uop} {s t : State} (words : List Nat) (h : performUop u s = .next t) :
    performUop u (s.withWords words) = .next (t.withWords words) := by
  obtain ⟨hu, rfl⟩ | ⟨rfl, hin, rfl⟩ := performUop_cases h
  · exact performUop_drive hu _
  · exact performUop_sample hin

/-- The advance reads the position and the operation alone (R171). -/
theorem State.advance_withWords (s : State) (words : List Nat) :
    (s.withWords words).advance = s.advance.withWords words := by
  by_cases hlast : s.upc.toNat + 1 = progLen s.op
  · rw [State.advance_last hlast]
    exact State.advance_last hlast
  · rw [State.advance_inner hlast]
    exact State.advance_inner hlast

/-- The step of a busy block, a reset or a micro-operation, is the same whatever words stand at the port (R160). -/
theorem step_withWords {s t : State} (words : List Nat) (hb : s.busy = true) (h : step s = .next t) :
    step (s.withWords words) = .next (t.withWords words) := by
  obtain ⟨hr, rfl⟩ | ⟨hr, -, u, m, hu, hm, rfl⟩ | ⟨-, hidle, -⟩ := step_cases h
  · exact step_of_reset (s := s.withWords words) hr
  · have hm' : performUop u (s.withWords words).tick = .next (m.withWords words) := performUop_withWords words hm
    rw [step_of_busy (s := s.withWords words) hr hb hu, hm', thenDo_next, State.advance_withWords]
  · simp [hb] at hidle

/-- Settles O11 by `step_withWords`: for the words of `s` itself it says that the step leaves them at the port. -/
theorem busyBlockDoesNotLookAtThePort : Obligations.BusyBlockDoesNotLookAtThePort := by
  intro s t words hb h
  have hsame : t = t.withWords s.cmdIn := Host.Outcome.next.inj (h.symm.trans (step_withWords s.cmdIn hb h))
  exact ⟨(congrArg State.cmdIn hsame).trans rfl, step_withWords words hb h⟩

/-! ## The host operations (R161, R163 to R165) -/

/-- Settles O12: each of the three asks for `BUSY` first. -/
theorem hostOperationsOnABusyBlockChangeNothing : Obligations.HostOperationsOnABusyBlockChangeNothing :=
  fun _ _ _ _ hb => ⟨if_pos hb, if_pos hb, if_pos hb⟩

/-- Settles O13: `exec_init_of_idle`, and the range that `Params.Ok` gives the level. -/
theorem initIsAcceptedWheneverIdle : Obligations.InitIsAcceptedWheneverIdle :=
  fun _ hb => ⟨exec_init_of_idle hb, fun ⟨hwidth, hlevel, _⟩ => toInt_operand (by omega) hlevel⟩

/-- Settles O14: `exec_bright_of_inited`, and the range of a well-formed level. -/
theorem brightLatchesItsControlByte : Obligations.BrightLatchesItsControlByte :=
  fun _ level hb hi => ⟨exec_bright_of_inited hb hi level, fun hwidth hwf => toInt_operand (by omega) hwf⟩

/-- Settles O15: `exec_showDec_of_inited`, and the range of a well-formed value. -/
theorem showLatchesItsFourPatterns : Obligations.ShowLatchesItsFourPatterns :=
  fun _ value colon hb hi =>
    ⟨exec_showDec_of_inited hb hi value colon, fun hwidth hwf => toInt_operand (by omega) hwf⟩

end Sys2Proof.Machine
